-- ==== Sys2Proof/Word.lean ====
section
/-! DEFINITION. The word types of the block (00_scope.md R12, 30_encoding.md R60). -/

namespace Sys2Proof

/-- One ROM entry, an unsigned 8-bit sample (00_scope.md R12). -/
abbrev Byte := BitVec 8

/-- An 8-bit opcode, the field OP (30_encoding.md R60). -/
abbrev Opcode := BitVec 8

/-- A 32-bit interface word: ARG of a command, DATA of a response (30_encoding.md R60, R61). -/
abbrev Word := BitVec 32

/-- A 24-bit phase quantity: CNT and INC (10_state.md R21, R22). -/
abbrev Phase := BitVec 24

/-- A 3-bit waveform selector (10_state.md R23). -/
abbrev Selector := BitVec 3

/-- A 40-bit command word (30_encoding.md R60). -/
abbrev CmdWord := BitVec 40

end Sys2Proof
end

