-- ==== Sys2Proof/Machine/Float32.lean ====
section
/-! DEFINITION. The binary32 format: f32_decode and round_f32 (42_frequency_converter.md R120, R121). -/

namespace Sys2Proof.Machine

/-- An extended real or NaN (42_frequency_converter.md R120). -/
inductive Ext where
  | nan
  | negInf
  | posInf
  | real (q : ℚ)
deriving DecidableEq, Repr

/-- 2^e for an integer e. -/
def pow2 : Int → ℚ
  | .ofNat n => ((2 ^ n : Nat) : ℚ)
  | .negSucc n => 1 / ((2 ^ (n + 1) : Nat) : ℚ)

/-- The sign, bit 31 (30_encoding.md R65). -/
def f32Sign (b : Word) : Bool := b.getLsbD 31

/-- The biased exponent, bits 30:23 (30_encoding.md R65). -/
def f32Exponent (b : Word) : Nat := (b.extractLsb' 23 8).toNat

/-- The fraction, bits 22:0 (30_encoding.md R65). -/
def f32Fraction (b : Word) : Nat := (b.extractLsb' 0 23).toNat

/-- The magnitude of a finite word: zero or subnormal when e = 0, else normal
(42_frequency_converter.md R120). -/
def f32Magnitude (e f : Nat) : ℚ :=
  if e = 0 then (f : ℚ) * pow2 (-149) else ((2 ^ 23 + f : Nat) : ℚ) * pow2 ((e : Int) - 150)

/-- `f32_decode(b)` (42_frequency_converter.md R120). -/
def f32Decode (b : Word) : Ext :=
  if f32Exponent b = 255 then
    if f32Fraction b ≠ 0 then .nan
    else if f32Sign b then .negInf else .posInf
  else
    let v := f32Magnitude (f32Exponent b) (f32Fraction b)
    .real (if f32Sign b then -v else v)

/-- floor(log2(q)) for q > 0 (42_frequency_converter.md R121). -/
def floorLog2 (q : ℚ) : Int :=
  let k : Int := (Nat.log2 q.num.toNat : Int) - (Nat.log2 q.den : Int)
  if pow2 k ≤ q then k else k - 1

/-- The nearest integer, ties to even (42_frequency_converter.md R121). -/
def nearestEven (q : ℚ) : Int :=
  let n := q.floor
  let r := q - (n : ℚ)
  if r < 1 / 2 then n
  else if 1 / 2 < r then n + 1
  else if n % 2 = 0 then n else n + 1

/-- The word of sign 0 with significand n (2^23 ≤ n < 2^24) and exponent e
(42_frequency_converter.md R121, its last line). -/
def packF32 (e n : Int) : Word :=
  (0 : BitVec 1) ++ BitVec.ofInt 8 (e + 127) ++ BitVec.ofInt 23 (n - 2 ^ 23)

/-- `round_f32(q)`, for 2^-126 ≤ q < 2^128 (42_frequency_converter.md R121). -/
def roundF32 (q : ℚ) : Word :=
  let e := floorLog2 q
  let n := nearestEven (q / pow2 (e - 23))
  if n = 2 ^ 24 then packF32 (e + 1) (2 ^ 23) else packF32 e n

end Sys2Proof.Machine
end

