-- ==== Sys2Proof/Machine/Converter.lean ====
section
/-! DEFINITION. The frequency converter: its constants and its two conversion functions, exact over the
rationals (00_scope.md R15, 42_frequency_converter.md R122 to R128). T is `TICK_PERIOD_MS`. -/

namespace Sys2Proof.Machine

/-- countsPerPeriod = 2^24 (00_scope.md R12). -/
def countsPerPeriod : ℚ := 16777216

/-- M, the increment per hertz (42_frequency_converter.md R122). -/
def incrementPerHertz (T : Nat) : ℚ := countsPerPeriod * (T : ℚ) / 1000

/-- MAX_FREQ in hertz (42_frequency_converter.md R123). -/
def maxFreq (T : Nat) : ℚ := countsPerPeriod / (incrementPerHertz T * 2)

/-- MIN_FREQ in hertz (42_frequency_converter.md R124). -/
def minFreq (T : Nat) : ℚ := 1000 / ((T : ℚ) * countsPerPeriod)

/-- MAX_PERIOD in seconds (42_frequency_converter.md R125). -/
def maxPeriod (T : Nat) : ℚ := 1 / minFreq T

/-- MIN_PERIOD in seconds (42_frequency_converter.md R125). -/
def minPeriod (T : Nat) : ℚ := 1 / maxFreq T

/-- `clamp(x, lo, hi)` on the extended reals; NaN has none (42_frequency_converter.md R126). -/
def clamp (x : Ext) (lo hi : ℚ) : Option ℚ :=
  match x with
  | .nan => none
  | .negInf => some lo
  | .posInf => some hi
  | .real q => some (if q ≤ lo then lo else if hi ≤ q then hi else q)

/-- `IFF`, the increment for a frequency in hertz; 1 for NaN (42_frequency_converter.md R127). -/
def incrementForFrequency (T : Nat) (x : Ext) : Nat :=
  match clamp x (minFreq T) (maxFreq T) with
  | none => 1
  | some fc => (fc * incrementPerHertz T).floor.toNat

/-- `IFP`, the increment for a period in seconds; 1 for NaN (42_frequency_converter.md R128). -/
def incrementForPeriod (T : Nat) (x : Ext) : Nat :=
  match clamp x (minPeriod T) (maxPeriod T) with
  | none => 1
  | some pc => (incrementPerHertz T / pc).floor.toNat

end Sys2Proof.Machine
end

