-- ==== Sys2Proof/Machine/Operands.lean ====
section
/-! DEFINITION. The operand forms: how ARG is read for each kind (30_encoding.md R62 to R65). A command of
kind N has no operand. -/

namespace Sys2Proof.Machine

/-- A U operand, reduced mod 2^24, that is ARG[23:0] (30_encoding.md R63). -/
def operandU (arg : Word) : Phase := arg.setWidth 24

/-- An S operand: ARG[2:0] when ARG is 0 to 6, else Sine; the whole of ARG is compared
(30_encoding.md R64, 41_wavetable_interpolator.md R105). -/
def operandS (arg : Word) : Selector := if arg.toNat ≤ 6 then arg.setWidth 3 else 0

/-- An F operand: the value of ARG as a binary32 pattern (30_encoding.md R65). -/
def operandF (arg : Word) : Ext := f32Decode arg

end Sys2Proof.Machine
end

