-- ==== Sys2Proof/Config.lean ====
section
/-! DEFINITION. The implementation parameters (00_scope.md R8 to R11), what makes them a valid
configuration (70_reset_and_hazards.md R184), and the one build that State.reset starts from. -/

namespace Sys2Proof

/-- The variant parameters (00_scope.md R9, R10). -/
structure Variant where
  /-- `HAS_WAVE_SELECT` (R9) -/
  hasWaveSelect : Bool
  /-- `HAS_FREQ_CONV` (R10) -/
  hasFreqConv : Bool
deriving DecidableEq, Repr

/-- The full block, both options present (00_scope.md R9, R10). -/
def Variant.full : Variant := { hasWaveSelect := true, hasFreqConv := true }

/-- The parameters an integrator chooses, valid or not. -/
structure Params where
  /-- `TICK_PERIOD_MS`, milliseconds between ticks (R8) -/
  tickPeriodMs : Nat
  variant : Variant
  /-- `WAVE_TABLE`: table s, entry i (R11) -/
  waveTable : List (List Byte)
deriving DecidableEq, Repr

/-- Why a model refuses a configuration (70_reset_and_hazards.md R184, 60_exceptions.md R162). -/
inductive ConfigRefusal where
  /-- `TICK_PERIOD_MS` is 0 or above 2^32 - 1 (R8) -/
  | tickPeriodOutOfRange
  /-- there are not seven tables (R12) -/
  | tableCount
  /-- a table has not 257 entries (R12) -/
  | tableLength
  /-- a table's entry 256 differs from its entry 0 (R11) -/
  | tableNotClosed
deriving DecidableEq, Repr

/-- The range of `TICK_PERIOD_MS` (00_scope.md R8). -/
def Params.tickPeriodOk (p : Params) : Bool := decide (1 ≤ p.tickPeriodMs) && decide (p.tickPeriodMs < 2 ^ 32)

/-- Seven tables (00_scope.md R12). -/
def Params.tableCountOk (p : Params) : Bool := p.waveTable.length == 7

/-- 257 entries in each table (00_scope.md R12). -/
def Params.tableLengthsOk (p : Params) : Bool := p.waveTable.all fun t => t.length == 257

/-- Entry 256 equals entry 0 in each table (00_scope.md R11). -/
def Params.tablesClosed (p : Params) : Bool := p.waveTable.all fun t => t[256]? == t[0]?

/-- A valid configuration (70_reset_and_hazards.md R184). -/
def Params.valid (p : Params) : Bool :=
  p.tickPeriodOk && p.tableCountOk && p.tableLengthsOk && p.tablesClosed

/-- A configuration the block can have: parameters with the proof that they are valid, so that an
invalid one has no state and no step (60_exceptions.md R162, 70_reset_and_hazards.md R184; log 1). -/
structure Config extends Params where
  ok : toParams.valid = true
deriving DecidableEq, Repr

/-- A model refuses an invalid configuration, by name (70_reset_and_hazards.md R184). -/
def Params.configure (p : Params) : Except ConfigRefusal Config :=
  if h : p.valid = true then .ok { toParams := p, ok := h }
  else if p.tickPeriodOk = false then .error .tickPeriodOutOfRange
  else if p.tableCountOk = false then .error .tableCount
  else if p.tableLengthsOk = false then .error .tableLength
  else .error .tableNotClosed

/-- The identity string (00_scope.md R3). DEDUCED, log 15, safe: with no option present no letters
and no second hyphen follow. -/
def Config.identity (c : Config) : String :=
  "phase_accumulator-PA-CMD1"
    ++ (if c.variant.hasWaveSelect || c.variant.hasFreqConv then "-" else "")
    ++ (if c.variant.hasWaveSelect then "W" else "")
    ++ (if c.variant.hasFreqConv then "F" else "")

/-- The tick period the integrator fixed, before it is brought into range; uninterpreted
(00_scope.md R8: OPEN; DESIGN CHOICE, log 2, safe). -/
opaque Config.freeTickPeriod : Nat

/-- The integrator's sample for table s, entry i; uninterpreted (00_scope.md R11: opaque;
DESIGN CHOICE, log 2, safe). -/
opaque Config.freeSample : Nat → Nat → Byte

/-- The build that State.reset starts from: the full block, with an uninterpreted legal tick period
and uninterpreted tables, each closed by its entry 0 (log 2). -/
def Config.builtParams : Params where
  tickPeriodMs := Config.freeTickPeriod % (2 ^ 32 - 1) + 1
  variant := Variant.full
  waveTable :=
    [0, 1, 2, 3, 4, 5, 6].map fun s =>
      (List.range 256).map (Config.freeSample s) ++ [Config.freeSample s 0]

theorem Config.builtParams_valid : Config.builtParams.valid = true := by
  have hT : Config.freeTickPeriod % (2 ^ 32 - 1) < 2 ^ 32 - 1 := Nat.mod_lt _ (by norm_num)
  have h1 : Config.builtParams.tickPeriodOk = true := by
    rw [Params.tickPeriodOk, Bool.and_eq_true, decide_eq_true_iff, decide_eq_true_iff]
    show 1 ≤ Config.freeTickPeriod % (2 ^ 32 - 1) + 1 ∧ Config.freeTickPeriod % (2 ^ 32 - 1) + 1 < 2 ^ 32
    omega
  have h2 : Config.builtParams.tableCountOk = true := rfl
  have h3 : Config.builtParams.tableLengthsOk = true := by
    simp [Params.tableLengthsOk, Config.builtParams]
  have h4 : Config.builtParams.tablesClosed = true := by
    simp [Params.tablesClosed, Config.builtParams]
  rw [Params.valid, h1, h2, h3, h4]
  rfl

/-- The configuration of State.reset (log 2). -/
def Config.built : Config := { toParams := Config.builtParams, ok := Config.builtParams_valid }

end Sys2Proof
end

