-- ==== Sys2Proof/Syntax.lean ====
section
/-! DEFINITION. The 17 commands of PA-CMD1 (30_encoding.md R66), one constructor per row of the opcode table. -/

namespace Sys2Proof

/-- How a command reads ARG (30_encoding.md R62). -/
inductive Kind where
  /-- no argument: ARG is ignored -/
  | n
  /-- an unsigned integer -/
  | u
  /-- a waveform selector -/
  | s
  /-- a binary32 bit pattern -/
  | f
deriving DecidableEq, Repr

/-- The parameter a command needs, the column "variant" of 30_encoding.md R66. -/
inductive Needs where
  | always
  | waveSelect
  | freqConv
deriving DecidableEq, Repr

/-- A command. Only kinds U, S and F carry ARG; a command of kind N ignores it (30_encoding.md R67;
DESIGN CHOICE, log 6, safe: no effect or response depends on it). -/
inductive Instr where
  | setInc (arg : Word)
  | getInc
  | setCnt (arg : Word)
  | getCnt
  | tick
  | resetPhase
  | isHalf
  | getValue
  | setWave (arg : Word)
  | convFreq (arg : Word)
  | convPeriod (arg : Word)
  | setFreq (arg : Word)
  | setPeriod (arg : Word)
  | getMinFreq
  | getMaxFreq
  | getMinPeriod
  | getMaxPeriod
deriving DecidableEq, Repr

/-- The operand kind of each command (30_encoding.md R66). -/
def Instr.kind : Instr → Kind
  | .setInc _ | .setCnt _ => .u
  | .setWave _ => .s
  | .convFreq _ | .convPeriod _ | .setFreq _ | .setPeriod _ => .f
  | .getInc | .getCnt | .tick | .resetPhase | .isHalf | .getValue
  | .getMinFreq | .getMaxFreq | .getMinPeriod | .getMaxPeriod => .n

/-- The parameter each command needs (30_encoding.md R66). -/
def Instr.needs : Instr → Needs
  | .setInc _ | .getInc | .setCnt _ | .getCnt | .tick | .resetPhase | .isHalf | .getValue => .always
  | .setWave _ => .waveSelect
  | .convFreq _ | .convPeriod _ | .setFreq _ | .setPeriod _
  | .getMinFreq | .getMaxFreq | .getMinPeriod | .getMaxPeriod => .freqConv

end Sys2Proof
end

