-- ==== Sys2Proof/WellFormed.lean ====
section
/-! DEFINITION. Which commands a configuration has (30_encoding.md R67). Operands need no check: their
types hold exactly the values a command accepts. The checks on a configuration are in Config.lean. -/

namespace Sys2Proof

/-- The parameter a command needs is set (30_encoding.md R66, column "variant"). -/
def Needs.met (v : Variant) : Needs → Bool
  | .always => true
  | .waveSelect => v.hasWaveSelect
  | .freqConv => v.hasFreqConv

/-- The command is legal in variant `v` (30_encoding.md R67, steps 2 and 3). -/
def Instr.wf (v : Variant) (i : Instr) : Bool := i.needs.met v

end Sys2Proof
end

