-- ==== Sys2Proof/Decode.lean ====
section
/-! DEFINITION. Decoding and encoding of command words (30_encoding.md R60, R66 to R68). -/

namespace Sys2Proof

/-- Why a word is illegal (30_encoding.md R67, steps 1 to 3). Each is answered with IllegalCommand. -/
inductive Reject where
  /-- OP is not in the opcode map -/
  | unassigned (op : Opcode)
  /-- SET_WAVE with `HAS_WAVE_SELECT` false -/
  | waveSelectAbsent
  /-- an opcode 0x20 to 0x27 with `HAS_FREQ_CONV` false -/
  | freqConvAbsent (op : Opcode)
deriving DecidableEq, Repr

/-- The field OP, bits 39:32 (30_encoding.md R60). -/
def opField (w : CmdWord) : Opcode := w.extractLsb' 32 8

/-- The field ARG, bits 31:0 (30_encoding.md R60). -/
def argField (w : CmdWord) : Word := w.extractLsb' 0 32

/-- The word with the given OP and ARG (30_encoding.md R60). -/
def mkWord (op : Opcode) (arg : Word) : CmdWord := op ++ arg

/-- The command of opcode `op`, whatever the variant (30_encoding.md R66). -/
def commandOf (op : Opcode) (arg : Word) : Option Instr :=
  match op.toNat with
  | 0x01 => some (.setInc arg)
  | 0x02 => some .getInc
  | 0x03 => some (.setCnt arg)
  | 0x04 => some .getCnt
  | 0x05 => some .tick
  | 0x06 => some .resetPhase
  | 0x07 => some .isHalf
  | 0x10 => some .getValue
  | 0x11 => some (.setWave arg)
  | 0x20 => some (.convFreq arg)
  | 0x21 => some (.convPeriod arg)
  | 0x22 => some (.setFreq arg)
  | 0x23 => some (.setPeriod arg)
  | 0x24 => some .getMinFreq
  | 0x25 => some .getMaxFreq
  | 0x26 => some .getMinPeriod
  | 0x27 => some .getMaxPeriod
  | _ => none

/-- The decoder: a total function of the word and the variant (30_encoding.md R67, R68). -/
def decode (v : Variant) (w : CmdWord) : Except Reject Instr :=
  match commandOf (opField w) (argField w) with
  | none => .error (.unassigned (opField w))
  | some i =>
    match i.needs with
    | .always => .ok i
    | .waveSelect => if v.hasWaveSelect then .ok i else .error .waveSelectAbsent
    | .freqConv => if v.hasFreqConv then .ok i else .error (.freqConvAbsent (opField w))

/-- The opcode of each command (30_encoding.md R66). -/
def Instr.opcode : Instr → Opcode
  | .setInc _ => 0x01
  | .getInc => 0x02
  | .setCnt _ => 0x03
  | .getCnt => 0x04
  | .tick => 0x05
  | .resetPhase => 0x06
  | .isHalf => 0x07
  | .getValue => 0x10
  | .setWave _ => 0x11
  | .convFreq _ => 0x20
  | .convPeriod _ => 0x21
  | .setFreq _ => 0x22
  | .setPeriod _ => 0x23
  | .getMinFreq => 0x24
  | .getMaxFreq => 0x25
  | .getMinPeriod => 0x26
  | .getMaxPeriod => 0x27

/-- ARG of each command; 0 for kind N (30_encoding.md R69). -/
def Instr.argument : Instr → Word
  | .setInc a | .setCnt a | .setWave a
  | .convFreq a | .convPeriod a | .setFreq a | .setPeriod a => a
  | .getInc | .getCnt | .tick | .resetPhase | .isHalf | .getValue
  | .getMinFreq | .getMaxFreq | .getMinPeriod | .getMaxPeriod => 0

/-- The encoder (30_encoding.md R60, R66, R69). -/
def encode (i : Instr) : CmdWord := mkWord i.opcode i.argument

/-- The command word whose low `nbits` bits are `w`, the bits above them 0. PA-CMD1 has one word
length, so no byte order arises (20_memory.md R43; DEDUCED, log 7, safe). -/
def tableWord (nbits w : Nat) : CmdWord := BitVec.ofNat 40 (w % 2 ^ nbits)

/-- What the full block's decoder reads from a word of the opcode table (log 7). -/
def decodeTableWord (nbits w : Nat) : Option Instr := (decode Variant.full (tableWord nbits w)).toOption

end Sys2Proof
end

