-- ==== Sys2Proof/Machine/Memory.lean ====
section
/-! DEFINITION. The block's one address space, the wavetable ROM (20_memory.md R40, R41). -/

namespace Sys2Proof.Machine

/-- An address space: (address, byte) pairs, addresses strictly rising. An unlisted address does not
exist and reads as no value (20_memory.md R41; log 5, safe). -/
abbrev Memory := List Host.Cell

/-- Size of the ROM in bytes, 7 tables of 257 entries (20_memory.md R40). -/
def romSize : Nat := 1799

/-- Entries in one table (00_scope.md R12). -/
def tableLength : Nat := 257

/-- `MemRead(addr, 1)` (20_memory.md R41). The only access there is: nothing writes the ROM (R40). -/
def readByte (a : Nat) : Memory → Option Byte
  | [] => none
  | (a', b) :: rest => if a' = a then some b else readByte a rest

/-- The addresses rise strictly, all at or above `low`, all inside the ROM. -/
def risesFrom (low : Nat) : Memory → Bool
  | [] => true
  | (a, _) :: rest => decide (low ≤ a) && decide (a < romSize) && risesFrom (a + 1) rest

/-- The canonical form of an address space: addresses strictly rising and inside [0, 1799). No entry
equals what an unlisted address reads as, since that is no value. -/
def Memory.wf (m : Memory) : Bool := risesFrom 0 m

/-- Bytes laid out from address `low` up. -/
def cellsFrom (low : Nat) : List Byte → Memory
  | [] => []
  | b :: rest => (low, b) :: cellsFrom (low + 1) rest

/-- The ROM image of a set of tables, row by row: address `257 * s + i` holds entry i of table s
(20_memory.md R40). -/
def romImage (tables : List (List Byte)) : Memory := cellsFrom 0 tables.flatten

/-- The ROM of a configuration (10_state.md R29). WAVE_TABLE is stored once, in the configuration;
this is its view as an address space. -/
def configRom (c : Config) : Memory := romImage c.waveTable

/-- `WAVE_TABLE[s][i]` of a configuration (00_scope.md R11), where s and i are in range. -/
def waveEntry (c : Config) (s i : Nat) : Option Byte := c.waveTable[s]?.bind fun t => t[i]?

end Sys2Proof.Machine
end

