-- ==== Sys2Proof/Machine/State.lean ====
section
/-! DEFINITION. The state of the block (10_state.md R20) and what the outside world delivers to it
(70_reset_and_hazards.md R191). -/

namespace Sys2Proof.Machine

/-- One thing the outside world delivers to the block; each is one atomic step (00_scope.md R6, R7,
70_reset_and_hazards.md R191). -/
inductive Input where
  /-- a command word from the host -/
  | command (w : CmdWord)
  /-- a tick event from the TickSource -/
  | tick
  /-- power-on reset from the platform (log 8) -/
  | powerOnReset
deriving DecidableEq, Repr

/-- A response (30_encoding.md R61). -/
structure Response where
  /-- ERR, 1 when the command was illegal -/
  err : Bool
  /-- DATA -/
  data : Word
deriving DecidableEq, Repr

/-- The machine. `cnt`, `inc` and `sel` are the spec's whole architectural state (10_state.md R20);
`cfg` is its configuration (log 1); `inputs`, `issued` and `responses` are the model's record of the
interface (logs 3, 4), which no command reads. -/
structure State where
  /-- CNT, the phase counter (10_state.md R21) -/
  cnt : Phase
  /-- INC, the phase increment (10_state.md R22) -/
  inc : Phase
  /-- SEL, the waveform selector (10_state.md R23) -/
  sel : Selector
  /-- the configuration, fixed before reset (00_scope.md R8 to R11) -/
  cfg : Config
  /-- what the outside delivers from here on, next first (20_memory.md R50, R51) -/
  inputs : List Input
  /-- the command words performed so far, oldest first (20_memory.md R56) -/
  issued : List CmdWord
  /-- the responses returned so far, oldest first (20_memory.md R56) -/
  responses : List Response
deriving DecidableEq, Repr

/-- Why the machine stops with a fault. -/
inductive Fault where
  /-- Raised by GET_VALUE when it forms a ROM address outside [0, 1799), which needs SEL = 7. No run
  reaches it (20_memory.md R41, 41_wavetable_interpolator.md R104). Safe (log 5). -/
  | romAddress (addr : Nat)
deriving DecidableEq, Repr

/-- Why an instruction has no meaning. -/
inductive Refusal where
  /-- Raised by exec's arm of an instruction that has no meaning yet. No arm does. Safe. -/
  | notModelled (mnemonic : String)
deriving DecidableEq, Repr

/-- The block under configuration `c`, right after power-on reset, with nothing delivered yet
(10_state.md R31, 70_reset_and_hazards.md R180). -/
def State.powerOn (c : Config) : State where
  cnt := 0
  inc := 0
  sel := 0
  cfg := c
  inputs := []
  issued := []
  responses := []

/-- The machine right after reset (10_state.md R31), in the configuration `Config.built` (log 2). -/
def State.reset : State := State.powerOn Config.built

end Sys2Proof.Machine
end

