-- ==== Sys2Proof/Machine/Ops.lean ====
section
/-! DEFINITION. The shared operations: responses and the one error outcome, register writes, the ROM read,
the phase advance, reset, and how inputs reach the block. -/

namespace Sys2Proof.Machine

/-- `respond(err, data)`: one response returned (00_scope.md R14, 30_encoding.md R61). -/
def State.respond (s : State) (err : Bool) (data : Word) : State :=
  { s with responses := s.responses ++ [{ err := err, data := data }] }

/-- A legal command ends: ERR = 0 and its result (60_exceptions.md R160). -/
def answer (data : Word) (s : State) : Host.Outcome State Fault Refusal := .next (s.respond false data)

/-- `raise IllegalCommand(op)`, the block's only error outcome: no state changes, and the response is
ERR = 1, DATA = 0. Nothing records `op` (60_exceptions.md R161). It saves nothing, changes no mode and
has no return: the next input is performed in the same state (R165, R166). -/
def raiseIllegalCommand (_op : Opcode) (s : State) : Host.Outcome State Fault Refusal :=
  .next (s.respond true 0)

/-- `x[CNT] <- v` (10_state.md R21). -/
def State.writeCnt (s : State) (v : Phase) : State := { s with cnt := v }

/-- `x[INC] <- v` (10_state.md R22). -/
def State.writeInc (s : State) (v : Phase) : State := { s with inc := v }

/-- `x[SEL] <- v` (10_state.md R23). -/
def State.writeSel (s : State) (v : Selector) : State := { s with sel := v }

/-- The effective selector (41_wavetable_interpolator.md R101). -/
def State.effectiveSel (s : State) : Selector := if s.cfg.variant.hasWaveSelect then s.sel else 0

/-- `MemRead(addr, 1)` of the wavetable ROM (20_memory.md R41). -/
def State.memRead (s : State) (addr : Nat) : Option Byte := readByte addr (configRom s.cfg)

/-- The ROM address of entry i of table s (41_wavetable_interpolator.md R100). -/
def tableAddress (sel : Selector) (i : Nat) : Nat := tableLength * sel.toNat + i

/-- `table(s, i)` (41_wavetable_interpolator.md R100). -/
def State.table (s : State) (sel : Selector) (i : Nat) : Option Byte := s.memRead (tableAddress sel i)

/-- CNT advances by INC mod 2^24: the update that TICK and a tick event share
(40_phase_accumulator.md R84). -/
def State.advancePhase (s : State) : State := s.writeCnt (s.cnt + s.inc)

/-- Power-on reset: CNT, INC and SEL are 0, the configuration stays (10_state.md R31,
70_reset_and_hazards.md R180). What lies outside the block stays as well: the inputs still to come and
the record of what was exchanged (DESIGN CHOICE, log 8, safe). -/
def State.powerOnReset (s : State) : State := ((s.writeCnt 0).writeInc 0).writeSel 0

/-- The next input is taken from those to come; none when there is none (20_memory.md R50). -/
def State.takeInput (s : State) : Option (Input × State) :=
  match s.inputs with
  | [] => none
  | i :: rest => some (i, { s with inputs := rest })

/-- The word of a command that is being performed goes on record (20_memory.md R56). -/
def State.record (s : State) (w : CmdWord) : State := { s with issued := s.issued ++ [w] }

/-- The inputs of a cycle in which a tick event and a command arrive together: the tick first
(20_memory.md R51, 60_exceptions.md R164; log 9). -/
def sameCycle (w : CmdWord) : List Input := [.tick, .command w]

/-- What an observer sees: the commands performed, each with its response, and the final CNT, INC and
SEL (20_memory.md R56). -/
def State.observed (s : State) : List (CmdWord × Response) × Phase × Phase × Selector :=
  (s.issued.zip s.responses, s.cnt, s.inc, s.sel)

end Sys2Proof.Machine
end

