-- ==== Sys2Proof/Machine/FreqConverter.lean ====
section
/-! DEFINITION. The frequency converter commands (42_frequency_converter.md R131 to R138). -/

namespace Sys2Proof.Machine

/-- A command that needs `HAS_FREQ_CONV`: IllegalCommand without it
(42_frequency_converter.md R131 to R138, first line of each). -/
def ifFreqConv (op : Opcode) (s : State) (out : Host.Outcome State Fault Refusal) :
    Host.Outcome State Fault Refusal :=
  if s.cfg.variant.hasFreqConv then out else raiseIllegalCommand op s

/-- `IFF(ARG)` of the block in state `s` (42_frequency_converter.md R127). -/
def State.iff (s : State) (arg : Word) : Nat := incrementForFrequency s.cfg.tickPeriodMs (operandF arg)

/-- `IFP(ARG)` of the block in state `s` (42_frequency_converter.md R128). -/
def State.ifp (s : State) (arg : Word) : Nat := incrementForPeriod s.cfg.tickPeriodMs (operandF arg)

/-- CONV_FREQ: answers the increment for a frequency (42_frequency_converter.md R131). -/
def execConvFreq (arg : Word) (s : State) : Host.Outcome State Fault Refusal :=
  ifFreqConv 0x20 s (answer (BitVec.ofNat 32 (s.iff arg)) s)

/-- CONV_PERIOD: answers the increment for a period (42_frequency_converter.md R132). -/
def execConvPeriod (arg : Word) (s : State) : Host.Outcome State Fault Refusal :=
  ifFreqConv 0x21 s (answer (BitVec.ofNat 32 (s.ifp arg)) s)

/-- SET_FREQ: INC := the increment for a frequency, mod 2^24 (42_frequency_converter.md R133). -/
def execSetFreq (arg : Word) (s : State) : Host.Outcome State Fault Refusal :=
  ifFreqConv 0x22 s (answer 0 (s.writeInc (BitVec.ofNat 24 (s.iff arg))))

/-- SET_PERIOD: INC := the increment for a period, mod 2^24 (42_frequency_converter.md R134). -/
def execSetPeriod (arg : Word) (s : State) : Host.Outcome State Fault Refusal :=
  ifFreqConv 0x23 s (answer 0 (s.writeInc (BitVec.ofNat 24 (s.ifp arg))))

/-- GET_MIN_FREQ: answers round_f32(MIN_FREQ) (42_frequency_converter.md R135). -/
def execGetMinFreq (s : State) : Host.Outcome State Fault Refusal :=
  ifFreqConv 0x24 s (answer (roundF32 (minFreq s.cfg.tickPeriodMs)) s)

/-- GET_MAX_FREQ: answers round_f32(MAX_FREQ) (42_frequency_converter.md R136). -/
def execGetMaxFreq (s : State) : Host.Outcome State Fault Refusal :=
  ifFreqConv 0x25 s (answer (roundF32 (maxFreq s.cfg.tickPeriodMs)) s)

/-- GET_MIN_PERIOD: answers round_f32(MIN_PERIOD) (42_frequency_converter.md R137). -/
def execGetMinPeriod (s : State) : Host.Outcome State Fault Refusal :=
  ifFreqConv 0x26 s (answer (roundF32 (minPeriod s.cfg.tickPeriodMs)) s)

/-- GET_MAX_PERIOD: answers round_f32(MAX_PERIOD) (42_frequency_converter.md R138). -/
def execGetMaxPeriod (s : State) : Host.Outcome State Fault Refusal :=
  ifFreqConv 0x27 s (answer (roundF32 (maxPeriod s.cfg.tickPeriodMs)) s)

end Sys2Proof.Machine
end

