-- ==== Sys2Proof/Machine/Flags.lean ====
section
/-! DEFINITION. The block stores no flags (10_state.md R26). Its one computed condition is here. -/

namespace Sys2Proof.Machine

/-- Past half a period: CNT > 2^23, strictly (40_phase_accumulator.md R86). -/
def pastHalf (c : Phase) : Bool := decide (2 ^ 23 < c.toNat)

/-- A `bool` result as DATA: 1 or 0 (30_encoding.md R61). -/
def boolWord (b : Bool) : Word := if b then 1 else 0

end Sys2Proof.Machine
end

