-- ==== Sys2Proof/Machine/PhaseAccumulator.lean ====
section
/-! DEFINITION. The phase accumulator commands (40_phase_accumulator.md R80 to R86). -/

namespace Sys2Proof.Machine

/-- SET_INC: INC := ARG mod 2^24 (40_phase_accumulator.md R80). -/
def execSetInc (arg : Word) (s : State) : Host.Outcome State Fault Refusal :=
  answer 0 (s.writeInc (operandU arg))

/-- GET_INC: answers INC, zero-extended (40_phase_accumulator.md R81). -/
def execGetInc (s : State) : Host.Outcome State Fault Refusal := answer (s.inc.setWidth 32) s

/-- SET_CNT: CNT := ARG mod 2^24 (40_phase_accumulator.md R82). -/
def execSetCnt (arg : Word) (s : State) : Host.Outcome State Fault Refusal :=
  answer 0 (s.writeCnt (operandU arg))

/-- GET_CNT: answers CNT, zero-extended (40_phase_accumulator.md R83). -/
def execGetCnt (s : State) : Host.Outcome State Fault Refusal := answer (s.cnt.setWidth 32) s

/-- TICK: CNT := (CNT + INC) mod 2^24 (40_phase_accumulator.md R84). -/
def execTick (s : State) : Host.Outcome State Fault Refusal := answer 0 s.advancePhase

/-- RESET_PHASE: CNT := 0; INC and SEL stay (40_phase_accumulator.md R85). -/
def execResetPhase (s : State) : Host.Outcome State Fault Refusal := answer 0 (s.writeCnt 0)

/-- IS_HALF: answers whether CNT > 2^23 (40_phase_accumulator.md R86). -/
def execIsHalf (s : State) : Host.Outcome State Fault Refusal := answer (boolWord (pastHalf s.cnt)) s

/-- A tick event: the state update of TICK, and no response (40_phase_accumulator.md R84). -/
def tickEvent (s : State) : Host.Outcome State Fault Refusal := .next s.advancePhase

end Sys2Proof.Machine
end

