-- ==== Sys2Proof/Machine/Wavetable.lean ====
section
/-! DEFINITION. The wavetable interpolator commands (41_wavetable_interpolator.md R102, R105). -/

namespace Sys2Proof.Machine

/-- The table index, CNT[23:16] (41_wavetable_interpolator.md R102, step 1). -/
def phaseIndex (c : Phase) : Nat := (c.extractLsb' 16 8).toNat

/-- The interpolation weight, CNT[15:0] (41_wavetable_interpolator.md R102, step 2). -/
def phaseFrac (c : Phase) : Nat := (c.extractLsb' 0 16).toNat

/-- Steps 4 and 5 of 41_wavetable_interpolator.md R102, over the integers. -/
def interpolate (low high : Byte) (frac : Nat) : Int :=
  let delta : Int := ((high.toNat : Int) - (low.toNat : Int)) * (frac : Int)
  (low.toNat : Int) * 2 ^ 16 + delta

/-- GET_VALUE: the sample at the current phase, interpolated between two adjacent entries of the active
table (41_wavetable_interpolator.md R102). -/
def execGetValue (s : State) : Host.Outcome State Fault Refusal :=
  let es := s.effectiveSel
  let index := phaseIndex s.cnt
  match s.table es index, s.table es (index + 1) with
  | some low, some high => answer (BitVec.ofInt 32 (interpolate low high (phaseFrac s.cnt))) s
  | some _, none => .fault (.romAddress (tableAddress es (index + 1)))
  | none, _ => .fault (.romAddress (tableAddress es index))

/-- SET_WAVE: SEL := ARG if ARG ≤ 6, else Sine; IllegalCommand in the base variant
(41_wavetable_interpolator.md R105). -/
def execSetWave (arg : Word) (s : State) : Host.Outcome State Fault Refusal :=
  if s.cfg.variant.hasWaveSelect then answer 0 (s.writeSel (operandS arg))
  else raiseIllegalCommand 0x11 s

end Sys2Proof.Machine
end

