-- ==== Sys2Proof/Machine/Dispatch.lean ====
section
/-! DEFINITION. The dispatch: one meaning for each command of the opcode map (30_encoding.md R66). -/

namespace Sys2Proof.Machine

def exec (i : Instr) (s : State) : Host.Outcome State Fault Refusal :=
  match i with
  | .setInc arg => Sys2Proof.Machine.execSetInc arg s
  | .getInc => Sys2Proof.Machine.execGetInc s
  | .setCnt arg => Sys2Proof.Machine.execSetCnt arg s
  | .getCnt => Sys2Proof.Machine.execGetCnt s
  | .tick => Sys2Proof.Machine.execTick s
  | .resetPhase => Sys2Proof.Machine.execResetPhase s
  | .isHalf => Sys2Proof.Machine.execIsHalf s
  | .getValue => Sys2Proof.Machine.execGetValue s
  | .setWave arg => Sys2Proof.Machine.execSetWave arg s
  | .convFreq arg => Sys2Proof.Machine.execConvFreq arg s
  | .convPeriod arg => Sys2Proof.Machine.execConvPeriod arg s
  | .setFreq arg => Sys2Proof.Machine.execSetFreq arg s
  | .setPeriod arg => Sys2Proof.Machine.execSetPeriod arg s
  | .getMinFreq => Sys2Proof.Machine.execGetMinFreq s
  | .getMaxFreq => Sys2Proof.Machine.execGetMaxFreq s
  | .getMinPeriod => Sys2Proof.Machine.execGetMinPeriod s
  | .getMaxPeriod => Sys2Proof.Machine.execGetMaxPeriod s

end Sys2Proof.Machine
end

