-- ==== Sys2Proof/Machine/Inputs.lean ====
section
/-! DEFINITION. What one input does: one atomic step of the block (00_scope.md R7). -/

namespace Sys2Proof.Machine

/-- A command word is performed: it goes on record, and the command it decodes to runs, or it raises
IllegalCommand (30_encoding.md R67, 60_exceptions.md R161). -/
def performCommand (w : CmdWord) (s : State) : Host.Outcome State Fault Refusal :=
  match decode s.cfg.variant w with
  | .ok i => exec i (s.record w)
  | .error _ => raiseIllegalCommand (opField w) (s.record w)

/-- One input is performed (70_reset_and_hazards.md R191). -/
def performInput (i : Input) (s : State) : Host.Outcome State Fault Refusal :=
  match i with
  | .command w => performCommand w s
  | .tick => tickEvent s
  | .powerOnReset => .next s.powerOnReset

/-- One step: the next input is taken and performed. With none to come the block holds its state and
does nothing (00_scope.md R6, 60_exceptions.md R173; DEDUCED, log 3, safe). -/
def stepOnce (s : State) : Host.Outcome State Fault Refusal :=
  match s.takeInput with
  | none => .next s
  | some (i, s') => performInput i s'

/-- The host issues `w` as the very next input (log 3). -/
def State.issueNext (s : State) (w : CmdWord) : State := { s with inputs := .command w :: s.inputs }

end Sys2Proof.Machine
end

