-- ==== Sys2Proof/Machine/Step.lean ====
section
/-! DEFINITION. The step function and the interface by which the host's checks place a command word. -/

namespace Sys2Proof.Machine

/-- One step of the block (00_scope.md R7, 20_memory.md R50). -/
def step (s : State) : Host.Outcome State Fault Refusal := stepOnce s

/-- `s` with the word whose low `nbits` bits are `w` issued as the next command (logs 3, 7). -/
def State.withFetchWord (s : State) (nbits w : Nat) : State := s.issueNext (tableWord nbits w)

end Sys2Proof.Machine
end

