-- ==== Sys2Proof/Machine/Assembler.lean ====
section
/-! DEFINITION. The assembly syntax of PA-CMD1 and its one pseudo-instruction (30_encoding.md R69). Text is
a list of characters. What the rule leaves open of the text form is in log 11, of rounding in log 12. -/

namespace Sys2Proof.Machine

/-- The text before a comment, which runs from `;` to the end of the line (30_encoding.md R69). -/
def uncomment (line : List Char) : List Char := line.takeWhile fun c => c != ';'

/-- A character that separates tokens: space, tab, carriage return (DESIGN CHOICE, log 11, unsafe). -/
def isBlank (c : Char) : Bool := c == ' ' || c == '\t' || c == '\r'

/-- The tokens of a text, `cur` being the token read so far. -/
def tokensFrom (cur : List Char) : List Char → List (List Char)
  | [] => if cur = [] then [] else [cur]
  | c :: cs =>
    if isBlank c then (if cur = [] then [] else [cur]) ++ tokensFrom [] cs
    else tokensFrom (cur ++ [c]) cs

/-- The value of a digit of base `base`, at most 16; hexadecimal letters in either case (log 11). -/
def digitValue (base : Nat) (c : Char) : Option Nat :=
  let n := c.toNat
  let d :=
    if 48 ≤ n ∧ n ≤ 57 then n - 48
    else if 65 ≤ n ∧ n ≤ 70 then n - 55
    else if 97 ≤ n ∧ n ≤ 102 then n - 87
    else base
  if d < base then some d else none

/-- The number that digits of base `base` write after `acc`. -/
def digitsFrom (base acc : Nat) : List Char → Option Nat
  | [] => some acc
  | c :: cs => (digitValue base c).bind fun d => digitsFrom base (acc * base + d) cs

/-- A number of at least one digit. -/
def parseDigits (base : Nat) (cs : List Char) : Option Nat :=
  if cs = [] then none else digitsFrom base 0 cs

/-- A hexadecimal integer with its prefix `0x`. -/
def parseHex : List Char → Option Nat
  | '0' :: 'x' :: cs => parseDigits 16 cs
  | _ => none

/-- A number in 0 .. 2^32 - 1 as ARG. -/
def asWord (n : Nat) : Option Word := if n < 2 ^ 32 then some (BitVec.ofNat 32 n) else none

/-- A U operand: a decimal or `0x` hexadecimal integer in 0 .. 2^32 - 1 (30_encoding.md R69). -/
def parseU (cs : List Char) : Option Word := ((parseHex cs).or (parseDigits 10 cs)).bind asWord

/-- The names of the waveforms, in the order of their numbers (30_encoding.md R69). -/
def waveNames : List String :=
  ["SINE", "TRIANGLE", "SQUARE", "SAWTOOTH", "ASYM_SINE", "INV_ASYM_SINE", "COMPOUND_SINE"]

/-- An S operand: an integer as for U, or the name of a waveform (30_encoding.md R69). -/
def parseS (cs : List Char) : Option Word :=
  ((waveNames.findIdx? fun n => n.toList == cs).map (BitVec.ofNat 32)).or (parseU cs)

/-- The binary32 pattern of a non-negative literal, to nearest with ties to even (30_encoding.md R69):
round_f32 where 42_frequency_converter.md R121 defines it, the subnormal patterns below it, infinity
above it (PRESUMED, log 12, unsafe). -/
def roundLiteral (q : ℚ) : Word :=
  if q < pow2 (-126) then BitVec.ofInt 32 (nearestEven (q * pow2 149))
  else if pow2 128 ≤ q then 0x7F800000
  else roundF32 q

/-- The text before the first character that satisfies `p`, and the text after it if there is one. -/
def cutAt (p : Char → Bool) (cs : List Char) : List Char × Option (List Char) :=
  match cs.dropWhile fun c => !p c with
  | [] => (cs, none)
  | _ :: rest => (cs.takeWhile fun c => !p c, some rest)

/-- The exponent of a literal: digits, with a sign or none; 0 where there is none (log 11). -/
def parseExponent : Option (List Char) → Option Int
  | none => some 0
  | some ('-' :: cs) => (parseDigits 10 cs).map fun n => -(n : Int)
  | some ('+' :: cs) => (parseDigits 10 cs).map fun n => (n : Int)
  | some cs => (parseDigits 10 cs).map fun n => (n : Int)

/-- 10^e for an integer e. -/
def pow10 : Int → ℚ
  | .ofNat n => ((10 ^ n : Nat) : ℚ)
  | .negSucc n => 1 / ((10 ^ (n + 1) : Nat) : ℚ)

/-- A decimal real literal without its sign: digits, then a point and digits, then an exponent, the last
two optional (log 11). -/
def parseReal (cs : List Char) : Option ℚ :=
  let (mantissa, exponent) := cutAt (fun c => c == 'e' || c == 'E') cs
  let (whole, fraction) := cutAt (fun c => c == '.') mantissa
  match parseDigits 10 whole, (match fraction with | none => some 0 | some f => parseDigits 10 f),
      parseExponent exponent with
  | some w, some f, some e =>
    some (((w : ℚ) + (f : ℚ) / ((10 ^ (fraction.getD []).length : Nat) : ℚ)) * pow10 e)
  | _, _, _ => none

/-- The raw form `bits(0x...)`, after its opening parenthesis (30_encoding.md R69). -/
def parseBits (cs : List Char) : Option Word :=
  match cutAt (fun c => c == ')') cs with
  | (digits, some []) => (parseHex digits).bind asWord
  | _ => none

/-- An F operand (30_encoding.md R69). -/
def parseF (cs : List Char) : Option Word :=
  if cs = "inf".toList then some 0x7F800000
  else if cs = "-inf".toList then some 0xFF800000
  else if cs = "nan".toList then some 0x7FC00000
  else match cs with
    | 'b' :: 'i' :: 't' :: 's' :: '(' :: rest => parseBits rest
    | '-' :: rest => (parseReal rest).map fun q => roundLiteral q ||| 0x80000000
    | _ => (parseReal cs).map roundLiteral

/-- How a mnemonic makes its command. -/
inductive AsmForm where
  | n (i : Instr)
  | u (make : Word → Instr)
  | s (make : Word → Instr)
  | f (make : Word → Instr)

/-- The mnemonics (30_encoding.md R66). -/
def mnemonics : List (String × AsmForm) :=
  [("SET_INC", .u .setInc), ("GET_INC", .n .getInc), ("SET_CNT", .u .setCnt), ("GET_CNT", .n .getCnt),
   ("TICK", .n .tick), ("RESET_PHASE", .n .resetPhase), ("IS_HALF", .n .isHalf),
   ("GET_VALUE", .n .getValue), ("SET_WAVE", .s .setWave),
   ("CONV_FREQ", .f .convFreq), ("CONV_PERIOD", .f .convPeriod),
   ("SET_FREQ", .f .setFreq), ("SET_PERIOD", .f .setPeriod),
   ("GET_MIN_FREQ", .n .getMinFreq), ("GET_MAX_FREQ", .n .getMaxFreq),
   ("GET_MIN_PERIOD", .n .getMinPeriod), ("GET_MAX_PERIOD", .n .getMaxPeriod)]

/-- The form of a mnemonic. -/
def formOf (m : List Char) : Option AsmForm :=
  (mnemonics.find? fun row => row.1.toList == m).map Prod.snd

/-- `TICKS n`: n copies of TICK (30_encoding.md R69). -/
def ticks (n : Nat) : List CmdWord := List.replicate n (encode .tick)

/-- The words of a line's tokens; none where they are no line of PA-CMD1 (30_encoding.md R69). -/
def assembleTokens : List (List Char) → Option (List CmdWord)
  | [] => some []
  | [m] =>
    match formOf m with
    | some (.n i) => some [encode i]
    | _ => none
  | [m, operand] =>
    if m = "TICKS".toList then (parseDigits 10 operand).map ticks
    else match formOf m with
      | some (.u make) => (parseU operand).map fun a => [encode (make a)]
      | some (.s make) => (parseS operand).map fun a => [encode (make a)]
      | some (.f make) => (parseF operand).map fun a => [encode (make a)]
      | _ => none
  | _ => none

/-- The words of one line of assembly (30_encoding.md R69). -/
def assembleLine (line : List Char) : Option (List CmdWord) :=
  assembleTokens (tokensFrom [] (uncomment line))

/-- The words of a program, one command a line (30_encoding.md R69). -/
def assemble : List (List Char) → Option (List CmdWord)
  | [] => some []
  | l :: ls => (assembleLine l).bind fun ws => (assemble ls).map fun rest => ws ++ rest

/-- A hexadecimal digit, capitals as the spec prints them (00_scope.md R13). -/
def hexChar (d : Nat) : Char := Char.ofNat (if d < 10 then 48 + d else 55 + d)

/-- `k` hexadecimal digits of `n`, the lowest ones. -/
def hexDigits (n : Nat) : Nat → List Char
  | 0 => []
  | k + 1 => hexDigits (n / 16) k ++ [hexChar (n % 16)]

/-- A command word in a listing: `0xOO_AAAAAAAA` (30_encoding.md R69, 00_scope.md R13). -/
def listing (w : CmdWord) : List Char :=
  ['0', 'x'] ++ hexDigits (opField w).toNat 2 ++ ['_'] ++ hexDigits (argField w).toNat 8

end Sys2Proof.Machine
end

