-- ==== Sys2Proof/Safety.lean ====
section
/-! DEFINITION. The terms claims about the block use: its invariant, runs, responses and frames. -/

namespace Sys2Proof.Machine

/-- What holds in every state a run reaches: SEL is never 7 (10_state.md R23), in the base variant it is
Sine (R23), and each command performed has one response (30_encoding.md R61). -/
abbrev Inv (s : State) : Prop :=
  s.sel.toNat ≤ 6
    ∧ (s.cfg.variant.hasWaveSelect = false → s.sel = 0)
    ∧ s.issued.length = s.responses.length

/-- `k` steps of the machine. -/
def runFor (k : Nat) (s : State) : Host.Outcome State Fault Refusal := Host.Core.run Sys2Proof.core k s

/-- The outside delivers `es` before what is still to come. -/
def State.deliver (s : State) (es : List Input) : State := { s with inputs := es ++ s.inputs }

/-- A tick step: a tick event, or a command word that is TICK (40_phase_accumulator.md R87). -/
def Input.isTick : Input → Bool
  | .tick => true
  | .command w => opField w == 0x05
  | .powerOnReset => false

/-- From `s` to `t` exactly one response was returned: ERR `err`, DATA `d`. -/
def Answered (s t : State) (err : Bool) (d : Nat) : Prop :=
  ∃ data : Word, t.responses = s.responses ++ [{ err := err, data := data }] ∧ data.toNat = d

/-- CNT, INC and SEL are unchanged. -/
def SameRegisters (s t : State) : Prop := t.cnt = s.cnt ∧ t.inc = s.inc ∧ t.sel = s.sel

/-- Configuration, ROM, inputs to come and the record of commands are unchanged. -/
def SameOutside (s t : State) : Prop :=
  t.cfg = s.cfg ∧ t.inputs = s.inputs ∧ t.issued = s.issued ∧ ∀ a, t.memRead a = s.memRead a

/-- Nothing changed but for one response, ERR = 0 and DATA `d`. -/
def OnlyAnswers (s t : State) (d : Nat) : Prop :=
  SameRegisters s t ∧ SameOutside s t ∧ Answered s t false d

/-- Nothing changed but for one response, ERR = 1 and DATA = 0 (60_exceptions.md R161). -/
def OnlyIllegal (s t : State) : Prop :=
  SameRegisters s t ∧ SameOutside s t ∧ Answered s t true 0

/-- Command `i` completes in `s` with ERR = 0 and DATA `d`. -/
def AnswersWith (i : Instr) (s : State) (d : Nat) : Prop :=
  ∃ t, exec i s = .next t ∧ Answered s t false d

/-- In every variant that has the option `n`, a word of opcode `op` is the command `make ARG`, whatever
its ARG (30_encoding.md R67, step 4). -/
def WordsDecodeTo (op : Opcode) (n : Needs) (make : Word → Instr) : Prop :=
  ∀ (v : Variant) (arg : Word), n.met v = true → decode v (mkWord op arg) = .ok (make arg)

/-- The legal range of `TICK_PERIOD_MS` (00_scope.md R8). -/
def LegalTick (T : Nat) : Prop := 1 ≤ T ∧ T < 2 ^ 32

end Sys2Proof.Machine
end

