-- ==== Sys2Proof/Certificates/Slice0/Obligations.lean ====
section
/-! DEFINITION. The statements about the block, one per rule or group of rules of spec/. -/

open Sys2Proof Sys2Proof.Machine

/-! ## Phase accumulator (40_phase_accumulator.md) -/

/-- R80. SET_INC stores ARG mod 2^24 in INC and changes nothing else; ARG = 0 stops the phase. -/
def Obligations.SetIncStoresArgMod24 : Prop :=
  WordsDecodeTo 0x01 .always .setInc ∧
  ∀ (arg : Word) (s : State), ∃ t, exec (.setInc arg) s = .next t ∧
    t.inc.toNat = arg.toNat % 2 ^ 24 ∧ t.cnt = s.cnt ∧ t.sel = s.sel ∧
    SameOutside s t ∧ Answered s t false 0 ∧
    (arg = 0 → ∀ u, exec .tick t = .next u → u.cnt = s.cnt)

/-- R81. GET_INC answers INC and changes nothing; after SET_INC v it answers v mod 2^24. -/
def Obligations.GetIncAnswersIncrement : Prop :=
  WordsDecodeTo 0x02 .always (fun _ => .getInc) ∧
  ∀ s : State,
    (∃ t, exec .getInc s = .next t ∧ OnlyAnswers s t s.inc.toNat ∧ s.inc.toNat < 2 ^ 24) ∧
    ∀ (v : Word) (t : State), exec (.setInc v) s = .next t → AnswersWith .getInc t (v.toNat % 2 ^ 24)

/-- R82. SET_CNT stores ARG mod 2^24 in CNT and changes nothing else. -/
def Obligations.SetCntStoresArgMod24 : Prop :=
  WordsDecodeTo 0x03 .always .setCnt ∧
  ∀ (arg : Word) (s : State), ∃ t, exec (.setCnt arg) s = .next t ∧
    t.cnt.toNat = arg.toNat % 2 ^ 24 ∧ t.inc = s.inc ∧ t.sel = s.sel ∧
    SameOutside s t ∧ Answered s t false 0

/-- R83. GET_CNT answers CNT and changes nothing; a tick event before a second GET_CNT can change what
that one answers. -/
def Obligations.GetCntAnswersPhase : Prop :=
  WordsDecodeTo 0x04 .always (fun _ => .getCnt) ∧
  ∀ s : State,
    (∃ t, exec .getCnt s = .next t ∧ OnlyAnswers s t s.cnt.toNat ∧ s.cnt.toNat < 2 ^ 24) ∧
    (s.inc ≠ 0 → ∃ t d, tickEvent s = .next t ∧ AnswersWith .getCnt t d ∧ d ≠ s.cnt.toNat)

/-- R84. TICK and a tick event advance CNT by INC mod 2^24 and change no other register; the event
returns no response; no other command adds INC to CNT or, but for SET_CNT and RESET_PHASE, changes it. -/
def Obligations.TickAdvancesPhase : Prop :=
  WordsDecodeTo 0x05 .always (fun _ => .tick) ∧
  (∀ s : State,
    (∃ t, exec .tick s = .next t ∧
      t.cnt.toNat = (s.cnt.toNat + s.inc.toNat) % 2 ^ 24 ∧ t.inc = s.inc ∧ t.sel = s.sel ∧
      SameOutside s t ∧ Answered s t false 0) ∧
    (∃ t, tickEvent s = .next t ∧
      t.cnt.toNat = (s.cnt.toNat + s.inc.toNat) % 2 ^ 24 ∧ t.inc = s.inc ∧ t.sel = s.sel ∧
      SameOutside s t ∧ t.responses = s.responses)) ∧
  ∀ (i : Instr) (s t : State), exec i s = .next t → t.cnt ≠ s.cnt →
    i = .tick ∨ i = .resetPhase ∨ ∃ a, i = .setCnt a

/-- R85. RESET_PHASE sets CNT to 0 and changes neither INC nor SEL. -/
def Obligations.ResetPhaseClearsPhase : Prop :=
  WordsDecodeTo 0x06 .always (fun _ => .resetPhase) ∧
  ∀ s : State, ∃ t, exec .resetPhase s = .next t ∧
    t.cnt.toNat = 0 ∧ t.inc = s.inc ∧ t.sel = s.sel ∧ SameOutside s t ∧ Answered s t false 0

/-- R86. IS_HALF answers 1 exactly when CNT > 2^23, else 0, and changes nothing. -/
def Obligations.IsHalfComparesPhase : Prop :=
  WordsDecodeTo 0x07 .always (fun _ => .isHalf) ∧
  ∀ s : State, ∃ t, exec .isHalf s = .next t ∧
    OnlyAnswers s t (if 2 ^ 23 < s.cnt.toNat then 1 else 0)

/-- R87. After N tick steps, tick events or TICK words in any mix, CNT = (c0 + N * INC) mod 2^24; INC
and SEL are as before, and exactly the words among them were answered. -/
def Obligations.TicksAreAdditive : Prop :=
  ∀ (es : List Input) (s : State), (∀ e ∈ es, e.isTick = true) →
    ∃ t, runFor es.length (s.deliver es) = .next t ∧
      t.cnt.toNat = (s.cnt.toNat + es.length * s.inc.toNat) % 2 ^ 24 ∧
      t.inc = s.inc ∧ t.sel = s.sel ∧ t.cfg = s.cfg ∧ t.inputs = s.inputs ∧
      t.responses.length + es.count .tick = s.responses.length + es.length

/-- R89. Every command of the phase accumulator family is legal in every variant and answers ERR = 0,
and CNT and INC stay below 2^24. -/
def Obligations.PhaseFamilyNeverErrs : Prop :=
  ∀ (i : Instr) (s : State), i.opcode.toNat ≤ 7 →
    (∀ v : Variant, decode v (encode i) = .ok i) ∧
    ∃ t d, exec i s = .next t ∧ Answered s t false d ∧ t.cnt.toNat < 2 ^ 24 ∧ t.inc.toNat < 2 ^ 24

/-! ## Wavetable interpolator (41_wavetable_interpolator.md) and its ROM (20_memory.md) -/

/-- R100. table(s, i) is WAVE_TABLE[s][i], read from the ROM at 257 * s + i, for s in 0..6 and
i in 0..256. -/
def Obligations.TableReadsWaveEntry : Prop :=
  ∀ (s : State) (sel : Selector) (i : Nat), sel.toNat ≤ 6 → i ≤ 256 →
    ∃ b, s.table sel i = some b ∧ s.memRead (257 * sel.toNat + i) = some b ∧
      waveEntry s.cfg sel.toNat i = some b ∧ b.toNat ≤ 255

/-- R40, R41. The ROM has a byte, WAVE_TABLE[a div 257][a mod 257], at each address of [0, 1799), and
the model has none at any other address (the model's choice, log 5). -/
def Obligations.RomHoldsTheTables : Prop :=
  ∀ (c : Config) (a : Nat),
    (a < 1799 → ∃ b, readByte a (configRom c) = some b ∧ waveEntry c (a / 257) (a % 257) = some b) ∧
    (1799 ≤ a → readByte a (configRom c) = none)

/-- R101. The effective selector is SEL in the waveform-selectable variant and Sine in the base variant,
Sine after reset, and no command but SET_WAVE changes it. -/
def Obligations.EffectiveSelectorRule : Prop :=
  (∀ s : State, s.cfg.variant.hasWaveSelect = true → s.effectiveSel = s.sel) ∧
  (∀ s : State, s.cfg.variant.hasWaveSelect = false → s.effectiveSel.toNat = 0) ∧
  (∀ c : Config, (State.powerOn c).effectiveSel.toNat = 0) ∧
  ∀ (i : Instr) (s t : State), exec i s = .next t → t.effectiveSel ≠ s.effectiveSel → ∃ a, i = .setWave a

/-- R102. GET_VALUE answers low * 2^16 + (high - low) * frac of the two entries at CNT >> 16 and the next
one, and changes nothing; entry 256, read at index 255, equals entry 0. -/
def Obligations.GetValueInterpolates : Prop :=
  WordsDecodeTo 0x10 .always (fun _ => .getValue) ∧
  ∀ s : State, s.effectiveSel.toNat ≤ 6 →
    ∃ (low high : Byte) (t : State) (d : Nat),
      s.table s.effectiveSel (s.cnt.toNat / 2 ^ 16) = some low ∧
      s.table s.effectiveSel (s.cnt.toNat / 2 ^ 16 + 1) = some high ∧
      (s.cnt.toNat / 2 ^ 16 = 255 → s.table s.effectiveSel 0 = some high) ∧
      exec .getValue s = .next t ∧ OnlyAnswers s t d ∧
      (d : Int) = (low.toNat : Int) * 2 ^ 16
        + ((high.toNat : Int) - (low.toNat : Int)) * ((s.cnt.toNat % 2 ^ 16 : Nat) : Int)

/-- R103. The interpolation is the exact weighted sum of the two entries, lies between them and in
0 .. 0xFF0000, and arithmetic mod 2^32 gives the same word. -/
def Obligations.InterpolationIsExact : Prop :=
  ∀ (low high : Byte) (c : Phase),
    let frac := phaseFrac c
    let r := interpolate low high frac
    frac < 65536 ∧
    r = (low.toNat : Int) * (65536 - (frac : Int)) + (high.toNat : Int) * (frac : Int) ∧
    0 ≤ r ∧ r ≤ 0xFF0000 ∧
    (min low.toNat high.toNat : Nat) * 65536 ≤ r ∧ r ≤ (max low.toNat high.toNat : Nat) * 65536 ∧
    ((BitVec.ofInt 32 r).toNat : Int) = r ∧
    (low.setWidth 32 <<< 16) + (high.setWidth 32 - low.setWidth 32) * BitVec.ofNat 32 frac = BitVec.ofInt 32 r

/-- R104. Whatever CNT is, GET_VALUE reads entries 0 to 256 only, inside the ROM, and never faults. -/
def Obligations.GetValueStaysInTable : Prop :=
  ∀ s : State,
    phaseIndex s.cnt = s.cnt.toNat / 2 ^ 16 ∧ phaseIndex s.cnt ≤ 255 ∧
    (s.effectiveSel.toNat ≤ 6 →
      tableAddress s.effectiveSel (phaseIndex s.cnt + 1) < romSize ∧
      ∀ f, exec .getValue s ≠ .fault f)

/-- R105. SET_WAVE stores ARG in SEL when ARG ≤ 6 and else selects Sine, comparing the whole of ARG, and
changes nothing else; in the base variant it is an illegal command. -/
def Obligations.SetWaveSelectsTable : Prop :=
  WordsDecodeTo 0x11 .waveSelect .setWave ∧
  ∀ (arg : Word) (s : State),
    (s.cfg.variant.hasWaveSelect = true → ∃ t, exec (.setWave arg) s = .next t ∧
      t.sel.toNat = (if arg.toNat ≤ 6 then arg.toNat else 0) ∧ t.cnt = s.cnt ∧ t.inc = s.inc ∧
      SameOutside s t ∧ Answered s t false 0) ∧
    (s.cfg.variant.hasWaveSelect = false → ∃ t, exec (.setWave arg) s = .next t ∧ OnlyIllegal s t)

/-- R106. Boundary exactness, monotonic segments with steps of exactly high - low, and the wrap from
CNT = 0xFFFFFF to 0 being one more step of the same size. -/
def Obligations.SampleShapeLaws : Prop :=
  ∀ s : State, s.effectiveSel.toNat ≤ 6 →
    (∀ (c : Phase) (b : Byte), c.toNat % 2 ^ 16 = 0 → s.table s.effectiveSel (c.toNat / 2 ^ 16) = some b →
      AnswersWith .getValue (s.writeCnt c) (b.toNat * 2 ^ 16)) ∧
    (∀ (c c' : Phase) (low high : Byte) (d d' : Nat), c.toNat / 2 ^ 16 = c'.toNat / 2 ^ 16 → c.toNat ≤ c'.toNat →
      s.table s.effectiveSel (c.toNat / 2 ^ 16) = some low →
      s.table s.effectiveSel (c.toNat / 2 ^ 16 + 1) = some high →
      AnswersWith .getValue (s.writeCnt c) d → AnswersWith .getValue (s.writeCnt c') d' →
      (low.toNat ≤ high.toNat → d ≤ d') ∧ (high.toNat < low.toNat → d' ≤ d) ∧
      (c'.toNat = c.toNat + 1 → (d' : Int) - (d : Int) = (high.toNat : Int) - (low.toNat : Int))) ∧
    (∀ (last first : Byte), s.table s.effectiveSel 255 = some last → s.table s.effectiveSel 0 = some first →
      AnswersWith .getValue (s.writeCnt 0xFFFFFF) (last.toNat + 65535 * first.toNat) ∧
      AnswersWith .getValue (s.writeCnt 0) (first.toNat * 2 ^ 16))

/-- What GET_VALUE answers depends on CNT, the effective selector and the ROM only (R102). -/
def Obligations.SampleDependsOnPhaseAndTable : Prop :=
  ∀ s s' : State, s.cnt = s'.cnt → s.effectiveSel = s'.effectiveSel → (∀ a, s.memRead a = s'.memRead a) →
    ∀ d, AnswersWith .getValue s d ↔ AnswersWith .getValue s' d

/-! ## Frequency converter (42_frequency_converter.md) -/

/-- R120. f32_decode reads the fields of a word as the rule says: NaN, the infinities, zero and
subnormals, normal numbers, the sign; every word has a value. -/
def Obligations.DecodeBinary32ByFields : Prop :=
  ∀ b : Word,
    let e : Nat := b.toNat / 2 ^ 23 % 2 ^ 8
    let f : Nat := b.toNat % 2 ^ 23
    let sign : ℚ := if b.toNat / 2 ^ 31 = 1 then -1 else 1
    (e = 255 → f ≠ 0 → f32Decode b = .nan) ∧
    (e = 255 → f = 0 → f32Decode b = if b.toNat / 2 ^ 31 = 1 then .negInf else .posInf) ∧
    (e = 0 → f32Decode b = .real (sign * ((f : ℚ) * (2 : ℚ) ^ (-149 : ℤ)))) ∧
    (1 ≤ e → e ≤ 254 → f32Decode b = .real (sign * ((2 ^ 23 + (f : ℚ)) * (2 : ℚ) ^ ((e : ℤ) - 150))))

/-- R121. round_f32(q) decodes to a value at least as near to q as that of any word, and of two equally
near values it takes the one with an even fraction field. -/
def Obligations.RoundBinary32IsNearest : Prop :=
  ∀ q : ℚ, (2 : ℚ) ^ (-126 : ℤ) ≤ q → q ≤ (2 ^ 24 - 1) * 2 ^ 104 →
    ∃ v : ℚ, f32Decode (roundF32 q) = .real v ∧
      ∀ (b : Word) (y : ℚ), f32Decode b = .real y →
        |v - q| ≤ |y - q| ∧ (y ≠ v → |y - q| = |v - q| → f32Fraction (roundF32 q) % 2 = 0)

/-- R121. For every legal tick period each of the four constants rounds to a finite normal number, with a
relative error of at most 2^-24. -/
def Obligations.ConstantsRoundToNormals : Prop :=
  ∀ T : Nat, LegalTick T → ∀ q ∈ [minFreq T, maxFreq T, minPeriod T, maxPeriod T],
    (2 : ℚ) ^ (-126 : ℤ) ≤ q ∧ q < 2 ^ 128 ∧
    1 ≤ f32Exponent (roundF32 q) ∧ f32Exponent (roundF32 q) ≤ 254 ∧ f32Sign (roundF32 q) = false ∧
    ∃ v : ℚ, f32Decode (roundF32 q) = .real v ∧ |v - q| ≤ q * (2 : ℚ) ^ (-24 : ℤ)

/-- Rounding the value of a positive normal word gives that word back (R120, R121). -/
def Obligations.RoundInvertsDecode : Prop :=
  ∀ (b : Word) (q : ℚ), f32Sign b = false → 1 ≤ f32Exponent b → f32Exponent b ≤ 254 →
    f32Decode b = .real q → roundF32 q = b

/-- R122 to R125. The converter constants, their closed forms, and that the bounds never degenerate. -/
def Obligations.ConverterConstants : Prop :=
  incrementPerHertz 1 = 2097152 / 125 ∧
  ∀ T : Nat, LegalTick T →
    incrementPerHertz T = 2 ^ 24 * (T : ℚ) / 1000 ∧
    maxFreq T = 2 ^ 24 / (incrementPerHertz T * 2) ∧ maxFreq T = 500 / (T : ℚ) ∧
    maxFreq T * incrementPerHertz T = 2 ^ 23 ∧
    minFreq T = 1000 / ((T : ℚ) * 2 ^ 24) ∧ minFreq T * incrementPerHertz T = 1 ∧
    maxPeriod T = 1 / minFreq T ∧ maxPeriod T = (T : ℚ) * 2 ^ 24 / 1000 ∧
    minPeriod T = 1 / maxFreq T ∧ minPeriod T = (T : ℚ) / 500 ∧
    incrementPerHertz T / maxPeriod T = 1 ∧ incrementPerHertz T / minPeriod T = 2 ^ 23 ∧
    minFreq T < maxFreq T ∧ minPeriod T < maxPeriod T

/-- R126. The clamp on the extended reals; NaN has none. -/
def Obligations.ClampOnExtendedReals : Prop :=
  ∀ lo hi : ℚ, lo < hi →
    clamp .negInf lo hi = some lo ∧ clamp .posInf lo hi = some hi ∧ clamp .nan lo hi = none ∧
    ∀ q : ℚ, (q ≤ lo → clamp (.real q) lo hi = some lo) ∧ (hi ≤ q → clamp (.real q) lo hi = some hi) ∧
      (lo ≤ q → q ≤ hi → clamp (.real q) lo hi = some q)

/-- R127. IFF: 1 for NaN, else the floor of the clamped frequency times M. -/
def Obligations.FrequencyToIncrement : Prop :=
  ∀ (T : Nat) (b : Word), LegalTick T →
    (f32Decode b = .nan → incrementForFrequency T (operandF b) = 1) ∧
    (f32Decode b = .negInf → incrementForFrequency T (operandF b) = 1) ∧
    (f32Decode b = .posInf → incrementForFrequency T (operandF b) = 2 ^ 23) ∧
    ∀ q : ℚ, f32Decode b = .real q →
      (incrementForFrequency T (operandF b) : Int)
        = ⌊max (1000 / ((T : ℚ) * 2 ^ 24)) (min q (500 / (T : ℚ))) * (2 ^ 24 * (T : ℚ) / 1000)⌋

/-- R128. IFP: 1 for NaN, else the floor of M divided by the clamped period. -/
def Obligations.PeriodToIncrement : Prop :=
  ∀ (T : Nat) (b : Word), LegalTick T →
    (f32Decode b = .nan → incrementForPeriod T (operandF b) = 1) ∧
    (f32Decode b = .negInf → incrementForPeriod T (operandF b) = 2 ^ 23) ∧
    (f32Decode b = .posInf → incrementForPeriod T (operandF b) = 1) ∧
    ∀ q : ℚ, f32Decode b = .real q →
      (incrementForPeriod T (operandF b) : Int)
        = ⌊(2 ^ 24 * (T : ℚ) / 1000) / max ((T : ℚ) / 500) (min q ((T : ℚ) * 2 ^ 24 / 1000))⌋

/-- R129. Range, exact bounds, monotonicity and truncation loss of the two conversion functions. -/
def Obligations.ConversionRangeAndOrder : Prop :=
  ∀ T : Nat, LegalTick T →
    (∀ b : Word,
      1 ≤ incrementForFrequency T (f32Decode b) ∧ incrementForFrequency T (f32Decode b) ≤ 2 ^ 23 ∧
      1 ≤ incrementForPeriod T (f32Decode b) ∧ incrementForPeriod T (f32Decode b) ≤ 2 ^ 23) ∧
    incrementForFrequency T (.real (maxFreq T)) = 2 ^ 23 ∧ incrementForFrequency T (.real (minFreq T)) = 1 ∧
    (∀ q q' : ℚ, q ≤ q' →
      incrementForFrequency T .negInf ≤ incrementForFrequency T (.real q) ∧
      incrementForFrequency T (.real q) ≤ incrementForFrequency T (.real q') ∧
      incrementForFrequency T (.real q') ≤ incrementForFrequency T .posInf ∧
      incrementForPeriod T .posInf ≤ incrementForPeriod T (.real q') ∧
      incrementForPeriod T (.real q') ≤ incrementForPeriod T (.real q) ∧
      incrementForPeriod T (.real q) ≤ incrementForPeriod T .negInf) ∧
    (∀ (x : Ext) (fc : ℚ), clamp x (minFreq T) (maxFreq T) = some fc →
      0 ≤ fc * incrementPerHertz T - (incrementForFrequency T x : ℚ) ∧
      fc * incrementPerHertz T - (incrementForFrequency T x : ℚ) < 1) ∧
    (∀ (x : Ext) (pc : ℚ), clamp x (minPeriod T) (maxPeriod T) = some pc →
      0 ≤ incrementPerHertz T / pc - (incrementForPeriod T x : ℚ) ∧
      incrementPerHertz T / pc - (incrementForPeriod T x : ℚ) < 1)

/-- R130. For a binary32 frequency f inside the bounds, the increments of f and of the rounded period
1/f differ by at most 1, and are equal where 1/f is exact. -/
def Obligations.ConversionsAreInverse : Prop :=
  ∀ (T : Nat) (b : Word) (f : ℚ), LegalTick T → f32Decode b = .real f → minFreq T ≤ f → f ≤ maxFreq T →
    let x := incrementForFrequency T (f32Decode b)
    let y := incrementForPeriod T (f32Decode (roundF32 (1 / f)))
    x ≤ y + 1 ∧ y ≤ x + 1 ∧ ((∃ w, f32Decode w = .real (1 / f)) → x = y)

/-- R131. CONV_FREQ answers IFF(ARG) and changes nothing; its corner cases; illegal without the option. -/
def Obligations.ConvFreqAnswersIncrement : Prop :=
  WordsDecodeTo 0x20 .freqConv .convFreq ∧
  ∀ (arg : Word) (s : State),
    (s.cfg.variant.hasFreqConv = true → ∃ t, exec (.convFreq arg) s = .next t ∧
      OnlyAnswers s t (incrementForFrequency s.cfg.tickPeriodMs (f32Decode arg)) ∧
      (f32Decode arg = .nan ∨ f32Decode arg = .negInf ∨
        (∃ q, f32Decode arg = .real q ∧ q ≤ minFreq s.cfg.tickPeriodMs) → Answered s t false 1) ∧
      (f32Decode arg = .posInf ∨
        (∃ q, f32Decode arg = .real q ∧ maxFreq s.cfg.tickPeriodMs ≤ q) → Answered s t false 0x800000)) ∧
    (s.cfg.variant.hasFreqConv = false → ∃ t, exec (.convFreq arg) s = .next t ∧ OnlyIllegal s t)

/-- R132. CONV_PERIOD answers IFP(ARG) and changes nothing; its corner cases; illegal without the
option. -/
def Obligations.ConvPeriodAnswersIncrement : Prop :=
  WordsDecodeTo 0x21 .freqConv .convPeriod ∧
  ∀ (arg : Word) (s : State),
    (s.cfg.variant.hasFreqConv = true → ∃ t, exec (.convPeriod arg) s = .next t ∧
      OnlyAnswers s t (incrementForPeriod s.cfg.tickPeriodMs (f32Decode arg)) ∧
      (f32Decode arg = .negInf ∨
        (∃ q, f32Decode arg = .real q ∧ q ≤ minPeriod s.cfg.tickPeriodMs) → Answered s t false 0x800000) ∧
      (f32Decode arg = .nan ∨ f32Decode arg = .posInf ∨
        (∃ q, f32Decode arg = .real q ∧ maxPeriod s.cfg.tickPeriodMs ≤ q) → Answered s t false 1)) ∧
    (s.cfg.variant.hasFreqConv = false → ∃ t, exec (.convPeriod arg) s = .next t ∧ OnlyIllegal s t)

/-- R133. SET_FREQ stores IFF(ARG) in INC and changes neither CNT nor SEL; illegal without the option. -/
def Obligations.SetFreqStoresIncrement : Prop :=
  WordsDecodeTo 0x22 .freqConv .setFreq ∧
  ∀ (arg : Word) (s : State),
    (s.cfg.variant.hasFreqConv = true → ∃ t, exec (.setFreq arg) s = .next t ∧
      t.inc.toNat = incrementForFrequency s.cfg.tickPeriodMs (f32Decode arg) ∧
      t.cnt = s.cnt ∧ t.sel = s.sel ∧ SameOutside s t ∧ Answered s t false 0) ∧
    (s.cfg.variant.hasFreqConv = false → ∃ t, exec (.setFreq arg) s = .next t ∧ OnlyIllegal s t)

/-- R134. SET_PERIOD stores IFP(ARG) in INC and changes neither CNT nor SEL; a period of 0 gives 2^23;
illegal without the option. -/
def Obligations.SetPeriodStoresIncrement : Prop :=
  WordsDecodeTo 0x23 .freqConv .setPeriod ∧
  ∀ (arg : Word) (s : State),
    (s.cfg.variant.hasFreqConv = true → ∃ t, exec (.setPeriod arg) s = .next t ∧
      t.inc.toNat = incrementForPeriod s.cfg.tickPeriodMs (f32Decode arg) ∧
      (f32Decode arg = .real 0 → t.inc.toNat = 2 ^ 23) ∧
      t.cnt = s.cnt ∧ t.sel = s.sel ∧ SameOutside s t ∧ Answered s t false 0) ∧
    (s.cfg.variant.hasFreqConv = false → ∃ t, exec (.setPeriod arg) s = .next t ∧ OnlyIllegal s t)

/-- R135. GET_MIN_FREQ answers round_f32(MIN_FREQ) and changes nothing; illegal without the option. -/
def Obligations.GetMinFreqAnswersConstant : Prop :=
  WordsDecodeTo 0x24 .freqConv (fun _ => .getMinFreq) ∧
  f32Decode 0x387A0000 = .real (minFreq 1) ∧ roundF32 (minFreq 1) = 0x387A0000 ∧
  ∀ s : State,
    (s.cfg.variant.hasFreqConv = true → ∃ t, exec .getMinFreq s = .next t ∧
      OnlyAnswers s t (roundF32 (minFreq s.cfg.tickPeriodMs)).toNat) ∧
    (s.cfg.variant.hasFreqConv = false → ∃ t, exec .getMinFreq s = .next t ∧ OnlyIllegal s t)

/-- R136. GET_MAX_FREQ answers round_f32(MAX_FREQ) and changes nothing; the rounded value may lie above
or below; illegal without the option. -/
def Obligations.GetMaxFreqAnswersConstant : Prop :=
  WordsDecodeTo 0x25 .freqConv (fun _ => .getMaxFreq) ∧
  roundF32 (maxFreq 1) = 0x43FA0000 ∧
  roundF32 (maxFreq 3) = 0x4326AAAB ∧ incrementForFrequency 3 (operandF 0x4326AAAB) = 2 ^ 23 ∧
  roundF32 (maxFreq 11) = 0x4235D174 ∧ incrementForFrequency 11 (operandF 0x4235D174) = 8388607 ∧
  ∀ s : State,
    (s.cfg.variant.hasFreqConv = true → ∃ t, exec .getMaxFreq s = .next t ∧
      OnlyAnswers s t (roundF32 (maxFreq s.cfg.tickPeriodMs)).toNat) ∧
    (s.cfg.variant.hasFreqConv = false → ∃ t, exec .getMaxFreq s = .next t ∧ OnlyIllegal s t)

/-- R137. GET_MIN_PERIOD answers round_f32(MIN_PERIOD) and changes nothing; at T = 1 the answer lies
above the bound; illegal without the option. -/
def Obligations.GetMinPeriodAnswersConstant : Prop :=
  WordsDecodeTo 0x26 .freqConv (fun _ => .getMinPeriod) ∧
  roundF32 (minPeriod 1) = 0x3B03126F ∧ incrementForPeriod 1 (operandF 0x3B03126F) = 8388607 ∧
  ∀ s : State,
    (s.cfg.variant.hasFreqConv = true → ∃ t, exec .getMinPeriod s = .next t ∧
      OnlyAnswers s t (roundF32 (minPeriod s.cfg.tickPeriodMs)).toNat) ∧
    (s.cfg.variant.hasFreqConv = false → ∃ t, exec .getMinPeriod s = .next t ∧ OnlyIllegal s t)

/-- R138. GET_MAX_PERIOD answers round_f32(MAX_PERIOD) and changes nothing; at T = 1 the answer lies
above the bound and is clamped to it; illegal without the option. -/
def Obligations.GetMaxPeriodAnswersConstant : Prop :=
  WordsDecodeTo 0x27 .freqConv (fun _ => .getMaxPeriod) ∧
  roundF32 (maxPeriod 1) = 0x4683126F ∧ incrementForPeriod 1 (operandF 0x4683126F) = 1 ∧
  ∀ s : State,
    (s.cfg.variant.hasFreqConv = true → ∃ t, exec .getMaxPeriod s = .next t ∧
      OnlyAnswers s t (roundF32 (maxPeriod s.cfg.tickPeriodMs)).toNat) ∧
    (s.cfg.variant.hasFreqConv = false → ∃ t, exec .getMaxPeriod s = .next t ∧ OnlyIllegal s t)

/-- R139. SET_FREQ with a frequency f inside the bounds, then N tick events, N = 1000 / (f * T) whole:
CNT advances by N * IFF, more than 2^24 - N and at most 2^24 counts. -/
def Obligations.DriftOverOnePeriod : Prop :=
  ∀ (s : State) (b : Word) (f : ℚ) (N : Nat), s.cfg.variant.hasFreqConv = true →
    f32Decode b = .real f → minFreq s.cfg.tickPeriodMs ≤ f → f ≤ maxFreq s.cfg.tickPeriodMs →
    (N : ℚ) = 1000 / (f * (s.cfg.tickPeriodMs : ℚ)) →
    ∃ t, runFor (N + 1) (s.deliver (.command (mkWord 0x22 b) :: List.replicate N .tick)) = .next t ∧
      t.inc.toNat = incrementForFrequency s.cfg.tickPeriodMs (f32Decode b) ∧
      t.cnt.toNat = (s.cnt.toNat + N * t.inc.toNat) % 2 ^ 24 ∧
      2 ^ 24 < N * t.inc.toNat + N ∧ N * t.inc.toNat ≤ 2 ^ 24

/-- R188. SET_FREQ and SET_PERIOD leave an increment in 1 .. 2^23, so a period lasts at least 2 ticks;
SET_INC has no such guard and stores every value up to 2^24 - 1. -/
def Obligations.ConverterGuardsAliasing : Prop :=
  (∀ (s t : State) (b : Word), s.cfg.variant.hasFreqConv = true →
    exec (.setFreq b) s = .next t ∨ exec (.setPeriod b) s = .next t →
    1 ≤ t.inc.toNat ∧ t.inc.toNat ≤ 2 ^ 23 ∧ 2 * t.inc.toNat ≤ 2 ^ 24) ∧
  ∀ (s : State) (n : Nat), n < 2 ^ 24 → ∃ t, exec (.setInc (BitVec.ofNat 32 n)) s = .next t ∧ t.inc.toNat = n

/-! ## Command encoding (30_encoding.md) -/

/-- R68. Decoding the encoding of a command that the variant has gives the command back, with every
operand. -/
def Obligations.DecodeInvertsEncode : Prop :=
  ∀ (v : Variant) (i : Instr), i.wf v = true → decode v (encode i) = .ok i

/-- R66, R67. A word that decodes has the opcode of its command, and, but for the ignored ARG of an N
command, is that command's encoding. -/
def Obligations.EncodeInvertsDecode : Prop :=
  ∀ (v : Variant) (w : CmdWord) (i : Instr), decode v w = .ok i →
    i.wf v = true ∧ i.opcode = opField w ∧ (i.kind ≠ .n → encode i = w) ∧
    (i.kind = .n → ∀ arg : Word, decode v (mkWord (opField w) arg) = .ok i)

/-- R67. A word is illegal exactly when its OP is in 0x00, 0x08 to 0x0F, 0x12 to 0x1F or 0x28 to 0xFF, or
it is 0x11 without HAS_WAVE_SELECT, or in 0x20 to 0x27 without HAS_FREQ_CONV; ARG never matters. -/
def Obligations.IllegalWordsAreThese : Prop :=
  ∀ (v : Variant) (op : Opcode) (arg : Word),
    (∃ r, decode v (mkWord op arg) = .error r) ↔
      (op.toNat = 0 ∨ (0x08 ≤ op.toNat ∧ op.toNat ≤ 0x0F) ∨ (0x12 ≤ op.toNat ∧ op.toNat ≤ 0x1F) ∨
        0x28 ≤ op.toNat ∨
        (op.toNat = 0x11 ∧ v.hasWaveSelect = false) ∨
        (0x20 ≤ op.toNat ∧ op.toNat ≤ 0x27 ∧ v.hasFreqConv = false))

/-- Words written out bit by bit from the opcode map decode to the commands they stand for (R66). -/
def Obligations.SampleWordsDecode : Prop :=
  decode Variant.full 0b00000001_00000001_00100011_01000101_01100111#40 = .ok (.setInc 0x01234567) ∧
  decode Variant.full 0b00000101_10101011_11001101_11101111_00000001#40 = .ok .tick ∧
  decode Variant.full 0b00010001_00000000_00000000_00000000_00000010#40 = .ok (.setWave 2) ∧
  decode Variant.full 0b00100010_00111111_10000000_00000000_00000000#40 = .ok (.setFreq 0x3F800000) ∧
  decode Variant.full 0b00000000_00000000_00000000_00000000_00000000#40 = .error (.unassigned 0)

/-- R69. The assembler reads back a U operand in hexadecimal for every value, assembles each N mnemonic
with ARG = 0, and expands TICKS n, with n in decimal digits, to n copies of 0x05_00000000. -/
def Obligations.AssemblerEncodesLines : Prop :=
  (∀ arg : Word, assembleTokens ["SET_CNT".toList, ['0', 'x'] ++ hexDigits arg.toNat 8] = some [mkWord 0x03 arg]) ∧
  (∀ row ∈ mnemonics, ∀ i, row.2 = .n i → assembleTokens [row.1.toList] = some [mkWord i.opcode 0]) ∧
  ∀ (digits : List Char) (n : Nat), parseDigits 10 digits = some n →
    assembleTokens ["TICKS".toList, digits] = some (List.replicate n 0x0500000000#40)

/-! ## Steps, illegal commands, reset, and the whole machine -/

/-- A step runs the decoded instruction: with a command word next that decodes to i, step takes the word,
puts it on record and runs i (R50, R67; the record is the model's, log 4). -/
def Obligations.StepRunsDecodedCommand : Prop :=
  ∀ (s : State) (w : CmdWord) (rest : List Input) (i : Instr),
    s.inputs = .command w :: rest → decode s.cfg.variant w = .ok i →
    step s = exec i { s with inputs := rest, issued := s.issued ++ [w] }

/-- R161. An illegal word changes no register: the response is ERR = 1, DATA = 0, and the next input is
performed in the same state. -/
def Obligations.IllegalWordOnlyAnswersError : Prop :=
  ∀ (s : State) (w : CmdWord) (rest : List Input) (r : Reject),
    s.inputs = .command w :: rest → decode s.cfg.variant w = .error r →
    ∃ t, step s = .next t ∧ SameRegisters s t ∧ t.cfg = s.cfg ∧ (∀ a, t.memRead a = s.memRead a) ∧
      t.inputs = rest ∧ t.issued = s.issued ++ [w] ∧ Answered s t true 0

/-- R160. No legal command raises an exception: every command that the variant has answers ERR = 0, from
every state whose SEL is legal. -/
def Obligations.LegalCommandsNeverErr : Prop :=
  ∀ (i : Instr) (s : State), i.wf s.cfg.variant = true → s.sel.toNat ≤ 6 → ∃ d, AnswersWith i s d

/-- A tick event is performed as the next step, with TICK's update and no response (R6, R84); power-on
reset sets CNT, INC and SEL to 0 and keeps the configuration (R180, R191; that the record stays is the
model's choice, log 8). -/
def Obligations.StepPerformsEvents : Prop :=
  ∀ (s : State) (rest : List Input),
    (s.inputs = .tick :: rest → ∃ t, step s = .next t ∧
      t.cnt.toNat = (s.cnt.toNat + s.inc.toNat) % 2 ^ 24 ∧ t.inc = s.inc ∧ t.sel = s.sel ∧ t.cfg = s.cfg ∧
      t.inputs = rest ∧ t.issued = s.issued ∧ t.responses = s.responses) ∧
    (s.inputs = .powerOnReset :: rest → ∃ t, step s = .next t ∧
      t.cnt.toNat = 0 ∧ t.inc.toNat = 0 ∧ t.sel.toNat = 0 ∧ t.cfg = s.cfg ∧
      t.inputs = rest ∧ t.issued = s.issued ∧ t.responses = s.responses)

/-- R31. After power-on reset CNT = 0, INC = 0 and SEL = 0, in every configuration. -/
def Obligations.ResetClearsRegisters : Prop :=
  (∀ c : Config, (State.powerOn c).cnt.toNat = 0 ∧ (State.powerOn c).inc.toNat = 0 ∧
    (State.powerOn c).sel.toNat = 0 ∧ (State.powerOn c).cfg = c) ∧
  ∃ c : Config, State.reset = State.powerOn c

/-- R182. After power-on reset any number of tick steps leaves CNT at 0, and GET_VALUE then answers
table(0, 0) << 16. -/
def Obligations.ResetIsSilent : Prop :=
  ∀ (c : Config) (es : List Input), (∀ e ∈ es, e.isTick = true) →
    ∃ t b, runFor es.length ((State.powerOn c).deliver es) = .next t ∧ t.cnt.toNat = 0 ∧
      waveEntry c 0 0 = some b ∧ AnswersWith .getValue t (b.toNat * 2 ^ 16)

/-- R21, R22, R23. In one step CNT, INC and SEL change only through the commands and events the rules
name as their writers. -/
def Obligations.RegistersHaveTheseWriters : Prop :=
  ∀ s t : State, step s = .next t →
    (t.cnt ≠ s.cnt → ∃ e rest, s.inputs = e :: rest ∧
      (e = .tick ∨ e = .powerOnReset ∨
        ∃ w, e = .command w ∧ (opField w = 0x03 ∨ opField w = 0x05 ∨ opField w = 0x06))) ∧
    (t.inc ≠ s.inc → ∃ e rest, s.inputs = e :: rest ∧
      (e = .powerOnReset ∨
        ∃ w, e = .command w ∧ (opField w = 0x01 ∨
          (s.cfg.variant.hasFreqConv = true ∧ (opField w = 0x22 ∨ opField w = 0x23))))) ∧
    (t.sel ≠ s.sel → ∃ e rest, s.inputs = e :: rest ∧
      (e = .powerOnReset ∨
        ∃ w, e = .command w ∧ s.cfg.variant.hasWaveSelect = true ∧ opField w = 0x11))

/-- R29, R54. No step changes the configuration or a byte of the ROM. -/
def Obligations.StepsKeepConfiguration : Prop :=
  ∀ s t : State, step s = .next t → t.cfg = s.cfg ∧ ∀ a, t.memRead a = s.memRead a

/-- R11, R184. In every configuration the model has, each table's entry 256 equals its entry 0 and the
tick period is in range; every other choice of parameters is refused. -/
def Obligations.ConfigurationsAreValid : Prop :=
  (∀ c : Config, LegalTick c.tickPeriodMs ∧ c.waveTable.length = 7 ∧
    ∀ s, s ≤ 6 → ∃ b, waveEntry c s 256 = some b ∧ waveEntry c s 0 = some b) ∧
  ∀ p : Params, (∃ c, p.configure = .ok c ∧ c.toParams = p) ↔
    (LegalTick p.tickPeriodMs ∧ p.waveTable.length = 7 ∧ ∀ t ∈ p.waveTable, t.length = 257 ∧ t[256]? = t[0]?)

/-- R47. The read-only commands change no register and answer the same again; the writing commands but
TICK leave, run twice, what running once leaves; TICK is not idempotent. -/
def Obligations.IdempotenceClasses : Prop :=
  (∀ (i : Instr) (s t u : State), i.opcode ∈ [0x02, 0x04, 0x07, 0x10, 0x20, 0x21, 0x24, 0x25, 0x26, 0x27] →
    exec i s = .next t → exec i t = .next u →
    SameRegisters s t ∧ ∃ e d, Answered s t e d ∧ Answered t u e d) ∧
  (∀ (i : Instr) (s t u : State), i.opcode ∈ [0x01, 0x03, 0x06, 0x11, 0x22, 0x23] →
    exec i s = .next t → exec i t = .next u → SameRegisters t u) ∧
  ∀ (s t u : State), s.inc ≠ 0 → exec .tick s = .next t → exec .tick t = .next u → u.cnt ≠ t.cnt

/-- R61. A step that performs a command returns exactly one response, any other step none. -/
def Obligations.OneResponsePerCommand : Prop :=
  ∀ s t : State, step s = .next t →
    (∀ w rest, s.inputs = .command w :: rest →
      t.inputs = rest ∧ t.issued = s.issued ++ [w] ∧ ∃ e d, Answered s t e d ∧ (e = true → d = 0)) ∧
    ((∀ w rest, s.inputs ≠ .command w :: rest) → t.issued = s.issued ∧ t.responses = s.responses)

/-- A tick event and a command of one cycle: both are performed, the tick first (R51, R164). -/
def Obligations.SameCycleTickGoesFirst : Prop :=
  ∀ (s : State) (w : CmdWord), ∃ u : State, u.cnt.toNat = (s.cnt.toNat + s.inc.toNat) % 2 ^ 24 ∧
    SameOutside s u ∧ u.inc = s.inc ∧ u.sel = s.sel ∧ u.responses = s.responses ∧
    runFor 2 (s.deliver (sameCycle w)) = performCommand w u

/-- Two GET_CNT with a tick event between them answer CNT and CNT + INC mod 2^24 (R186). -/
def Obligations.TickBetweenTwoReads : Prop :=
  ∀ (s : State) (a a' : Word), ∃ t d d',
    runFor 3 (s.deliver [.command (mkWord 0x04 a), .tick, .command (mkWord 0x04 a')]) = .next t ∧
    t.responses = s.responses ++ [{ err := false, data := d }, { err := false, data := d' }] ∧
    d.toNat = s.cnt.toNat ∧ d'.toNat = (s.cnt.toNat + s.inc.toNat) % 2 ^ 24

/-- Set-up commands that write different registers may run in either order: CNT, INC and SEL end the
same (R183). -/
def Obligations.SetupOrderIsFree : Prop :=
  ∀ (i j : Instr) (s t u t' u' : State),
    i.opcode ∈ [0x01, 0x22, 0x23] ∧ j.opcode ∈ [0x03, 0x06, 0x11] ∨
      i.opcode ∈ [0x03, 0x06] ∧ j.opcode = 0x11 →
    exec i s = .next t → exec j t = .next u → exec j s = .next t' → exec i t' = .next u' →
    SameRegisters u u'

/-- The invariant holds right after reset, in every configuration (R23, R31). -/
def Obligations.InvAtReset : Prop := Inv State.reset ∧ ∀ c : Config, Inv (State.powerOn c)

/-- Every step keeps the invariant: SEL is never 7, it is Sine in the base variant, and each command has
one response (R23, R61). -/
def Obligations.StepKeepsInv : Prop := ∀ s t : State, Inv s → step s = .next t → Inv t

/-- Every step completes, and so does every run: from a state with the invariant no number of steps, over
any inputs, ends in a fault or a refusal, and the invariant holds after it (R53, R160). -/
def Obligations.RunsNeverStop : Prop :=
  ∀ (k : Nat) (s : State), Inv s → ∃ t, runFor k s = .next t ∧ Inv t ∧ t.inputs = s.inputs.drop k
end

