-- ==== Sys2Proof/Laws/Float32.lean ====
section
/-! SUPPORT. Binary32: powers of two, the binary logarithm, rounding to an integer, and the fields of a
packed word. -/

namespace Sys2Proof.Machine

/-- `pow2` is the library's power of two. -/
theorem pow2_eq_zpow (e : Int) : pow2 e = (2 : ℚ) ^ e := by
  cases e with
  | ofNat n => simp [pow2]
  | negSucc n => simp [pow2, zpow_negSucc]

theorem pow2_pos (e : Int) : 0 < pow2 e := by
  rw [pow2_eq_zpow]
  positivity

theorem pow2_add (a b : Int) : pow2 (a + b) = pow2 a * pow2 b := by
  simp only [pow2_eq_zpow]
  exact zpow_add₀ two_ne_zero a b

/-- `floorLog2` is the floor of the binary logarithm: 2^e ≤ q < 2^(e+1)
(42_frequency_converter.md R121). -/
theorem floorLog2_spec {q : ℚ} (hq : 0 < q) : pow2 (floorLog2 q) ≤ q ∧ q < pow2 (floorLog2 q + 1) := by
  have hn0 : 0 < q.num := Rat.num_pos.mpr hq
  set n := q.num.toNat with hn
  have hnpos : n ≠ 0 := by omega
  have hd : q.den ≠ 0 := q.den_nz
  have hnum : (q.num : ℚ) = (n : ℚ) := by
    rw [hn, ← Int.cast_natCast, Int.toNat_of_nonneg hn0.le]
  have hqeq : q = (n : ℚ) / (q.den : ℚ) := by
    rw [← hnum]
    exact (Rat.num_div_den q).symm
  have hdpos : (0 : ℚ) < (q.den : ℚ) := by exact_mod_cast Nat.pos_of_ne_zero hd
  have n1 : (2 : ℚ) ^ (Nat.log2 n : ℤ) ≤ (n : ℚ) := by exact_mod_cast Nat.log2_self_le hnpos
  have n2 : (n : ℚ) < (2 : ℚ) ^ (Nat.log2 n : ℤ) * 2 := by
    have := Nat.lt_log2_self (n := n)
    have h' : n < 2 ^ Nat.log2 n * 2 := by rwa [← pow_succ]
    exact_mod_cast h'
  have d1 : (2 : ℚ) ^ (Nat.log2 q.den : ℤ) ≤ (q.den : ℚ) := by exact_mod_cast Nat.log2_self_le hd
  have d2 : (q.den : ℚ) < (2 : ℚ) ^ (Nat.log2 q.den : ℤ) * 2 := by
    have := Nat.lt_log2_self (n := q.den)
    have h' : q.den < 2 ^ Nat.log2 q.den * 2 := by rwa [← pow_succ]
    exact_mod_cast h'
  have pa : (0 : ℚ) < (2 : ℚ) ^ (Nat.log2 n : ℤ) := by positivity
  have pb : (0 : ℚ) < (2 : ℚ) ^ (Nat.log2 q.den : ℤ) := by positivity
  have hk : pow2 ((Nat.log2 n : ℤ) - (Nat.log2 q.den : ℤ)) =
      (2 : ℚ) ^ (Nat.log2 n : ℤ) / (2 : ℚ) ^ (Nat.log2 q.den : ℤ) := by
    rw [pow2_eq_zpow, zpow_sub₀ two_ne_zero]
  have hlow : pow2 ((Nat.log2 n : ℤ) - (Nat.log2 q.den : ℤ) - 1) ≤ q := by
    rw [pow2_eq_zpow, zpow_sub_one₀ two_ne_zero, ← pow2_eq_zpow, hk, ← div_eq_mul_inv, div_div]
    conv_rhs => rw [hqeq]
    rw [div_le_div_iff₀ (by positivity) hdpos]
    exact mul_le_mul n1 d2.le hdpos.le (by positivity)
  have hhigh : q < pow2 ((Nat.log2 n : ℤ) - (Nat.log2 q.den : ℤ) + 1) := by
    rw [pow2_eq_zpow, zpow_add_one₀ two_ne_zero, ← pow2_eq_zpow, hk, div_mul_eq_mul_div]
    conv_lhs => rw [hqeq]
    rw [div_lt_div_iff₀ hdpos pb]
    exact mul_lt_mul n2 d1 pb (by positivity)
  unfold floorLog2
  simp only [← hn]
  split
  · rename_i h
    exact ⟨h, hhigh⟩
  · rename_i h
    refine ⟨hlow, ?_⟩
    rw [sub_add_cancel]
    exact lt_of_not_ge h

/-- Rounding to the nearest integer: at most 1/2 away, and even when exactly 1/2 away
(42_frequency_converter.md R121). -/
theorem nearestEven_spec (q : ℚ) :
    |(nearestEven q : ℚ) - q| ≤ 1 / 2 ∧ (|(nearestEven q : ℚ) - q| = 1 / 2 → nearestEven q % 2 = 0) := by
  have h1 : ((q.floor : ℤ) : ℚ) ≤ q := Int.floor_le q
  have h2 : q < ((q.floor : ℤ) : ℚ) + 1 := Int.lt_floor_add_one q
  unfold nearestEven
  simp only []
  split
  · rename_i h
    rw [abs_of_nonpos (by linarith)]
    exact ⟨by linarith, fun he => by linarith⟩
  · split
    · rename_i h h'
      push_cast
      rw [abs_of_nonneg (by linarith)]
      exact ⟨by linarith, fun he => by linarith⟩
    · rename_i h h'
      have he : q - ((q.floor : ℤ) : ℚ) = 1 / 2 := le_antisymm (not_lt.mp h') (not_lt.mp h)
      split
      · rename_i hev
        rw [abs_of_nonpos (by linarith)]
        exact ⟨by linarith, fun _ => hev⟩
      · rename_i hod
        push_cast
        rw [abs_of_nonneg (by linarith)]
        exact ⟨by linarith, fun _ => by omega⟩

/-- The three fields of a packed word (42_frequency_converter.md R121). -/
theorem packF32_fields {e n : Int} (he : -127 ≤ e) (he' : e ≤ 128) (hn : 2 ^ 23 ≤ n) (hn' : n < 2 ^ 24) :
    f32Sign (packF32 e n) = false ∧ f32Exponent (packF32 e n) = (e + 127).toNat ∧
      f32Fraction (packF32 e n) = (n - 2 ^ 23).toNat := by
  have h : (packF32 e n).toNat = (e + 127).toNat * 2 ^ 23 + (n - 2 ^ 23).toNat := by
    have ha : (BitVec.ofInt 8 (e + 127)).toNat = (e + 127).toNat := by
      rw [BitVec.toNat_ofInt]; omega
    have hb : (BitVec.ofInt 23 (n - 2 ^ 23)).toNat = (n - 2 ^ 23).toNat := by
      rw [BitVec.toNat_ofInt]; omega
    rw [packF32, BitVec.toNat_append, BitVec.toNat_append, ha, hb,
      ← Nat.shiftLeft_add_eq_or_of_lt (by omega), ← Nat.shiftLeft_add_eq_or_of_lt (by omega)]
    simp only [Nat.shiftLeft_eq]
    simp
  have hsign : f32Sign (packF32 e n) = (packF32 e n).toNat.testBit 31 := rfl
  refine ⟨?_, ?_, ?_⟩
  · rw [hsign, h]
    exact Nat.testBit_lt_two_pow (by omega)
  · rw [f32Exponent, BitVec.extractLsb'_toNat, h, Nat.shiftRight_eq_div_pow]
    omega
  · rw [f32Fraction, BitVec.extractLsb'_toNat, h, Nat.shiftRight_zero]
    omega

/-- What a packed word of a normal number decodes to. -/
theorem f32Decode_packF32 {e n : Int} (he : -126 ≤ e) (he' : e ≤ 127) (hn : 2 ^ 23 ≤ n) (hn' : n < 2 ^ 24) :
    f32Decode (packF32 e n) = .real ((n : ℚ) * pow2 (e - 23)) := by
  obtain ⟨hs, hx, hf⟩ := packF32_fields (e := e) (by omega) (by omega) hn hn'
  have hxne : f32Exponent (packF32 e n) ≠ 255 := by omega
  have hx0 : (e + 127).toNat ≠ 0 := by omega
  have hcast : ((2 ^ 23 + (n - 2 ^ 23).toNat : ℕ) : ℚ) = (n : ℚ) := by
    have : ((2 ^ 23 + (n - 2 ^ 23).toNat : ℕ) : ℤ) = n := by omega
    exact_mod_cast congrArg (Int.cast (R := ℚ)) this
  have hexp : (((e + 127).toNat : ℕ) : ℤ) - 150 = e - 23 := by omega
  unfold f32Decode
  rw [if_neg hxne]
  simp only [hs, hx, hf, f32Magnitude, if_neg hx0, hcast, hexp, Bool.false_eq_true, if_false]

/-- What round_f32 computes: a normal number or, from the largest exponent, the next pattern up
(42_frequency_converter.md R121). -/
theorem roundF32_cases {q : ℚ} (hq : 0 < q) :
    ∃ e n : Int, pow2 e ≤ q ∧ q < pow2 (e + 1) ∧ 2 ^ 23 ≤ n ∧ n ≤ 2 ^ 24 ∧
      |(n : ℚ) - q / pow2 (e - 23)| ≤ 1 / 2 ∧ (|(n : ℚ) - q / pow2 (e - 23)| = 1 / 2 → n % 2 = 0) ∧
      roundF32 q = if n = 2 ^ 24 then packF32 (e + 1) (2 ^ 23) else packF32 e n := by
  obtain ⟨h1, h2⟩ := floorLog2_spec hq
  have hp : 0 < pow2 (floorLog2 q - 23) := pow2_pos _
  obtain ⟨n1, n2⟩ := nearestEven_spec (q / pow2 (floorLog2 q - 23))
  have e1 : pow2 (floorLog2 q) = 2 ^ 23 * pow2 (floorLog2 q - 23) := by
    rw [show floorLog2 q = 23 + (floorLog2 q - 23) by ring, pow2_add]
    norm_num [pow2]
  have e2 : pow2 (floorLog2 q + 1) = 2 ^ 24 * pow2 (floorLog2 q - 23) := by
    rw [show floorLog2 q + 1 = 24 + (floorLog2 q - 23) by ring, pow2_add]
    norm_num [pow2]
  have l : (2 : ℚ) ^ 23 ≤ q / pow2 (floorLog2 q - 23) := by rw [le_div_iff₀ hp, ← e1]; exact h1
  have u : q / pow2 (floorLog2 q - 23) < (2 : ℚ) ^ 24 := by rw [div_lt_iff₀ hp, ← e2]; exact h2
  obtain ⟨a1, a2⟩ := abs_le.mp n1
  refine ⟨floorLog2 q, nearestEven (q / pow2 (floorLog2 q - 23)), h1, h2, ?_, ?_, n1, n2, rfl⟩
  · have : ((2 ^ 23 - 1 : ℤ) : ℚ) < (nearestEven (q / pow2 (floorLog2 q - 23)) : ℚ) := by
      push_cast
      linarith
    have := Int.cast_lt.mp this
    omega
  · have : (nearestEven (q / pow2 (floorLog2 q - 23)) : ℚ) < ((2 ^ 24 + 1 : ℤ) : ℚ) := by
      push_cast
      linarith
    have := Int.cast_lt.mp this
    omega

end Sys2Proof.Machine
end

