-- ==== Sys2Proof/Laws/Converter.lean ====
section
/-! SUPPORT. The converter's constants are positive and its clamp stays inside its bounds. -/

namespace Sys2Proof.Machine

theorem incrementPerHertz_pos {T : Nat} (h : 1 ≤ T) : 0 < incrementPerHertz T := by
  have : (0 : ℚ) < (T : ℚ) := by exact_mod_cast h
  unfold incrementPerHertz countsPerPeriod
  positivity

theorem minFreq_pos {T : Nat} (h : 1 ≤ T) : 0 < minFreq T := by
  have : (0 : ℚ) < (T : ℚ) := by exact_mod_cast h
  unfold minFreq countsPerPeriod
  positivity

theorem maxFreq_pos {T : Nat} (h : 1 ≤ T) : 0 < maxFreq T := by
  have := incrementPerHertz_pos h
  unfold maxFreq countsPerPeriod
  positivity

theorem minPeriod_pos {T : Nat} (h : 1 ≤ T) : 0 < minPeriod T := one_div_pos.mpr (maxFreq_pos h)

theorem maxPeriod_pos {T : Nat} (h : 1 ≤ T) : 0 < maxPeriod T := one_div_pos.mpr (minFreq_pos h)

/-- Only NaN has no clamped value; every other value is clamped into the bounds, in order, and a value
inside them is kept (42_frequency_converter.md R126). -/
theorem clamp_mem {x : Ext} {lo hi c : ℚ} (hlo : lo ≤ hi) (h : clamp x lo hi = some c) : lo ≤ c ∧ c ≤ hi := by
  cases x with
  | nan => cases h
  | negInf => cases h; exact ⟨le_rfl, hlo⟩
  | posInf => cases h; exact ⟨hlo, le_rfl⟩
  | real q =>
    simp only [clamp, Option.some.injEq] at h
    split at h
    · subst h; exact ⟨le_rfl, hlo⟩
    · split at h
      · subst h; exact ⟨hlo, le_rfl⟩
      · subst h
        exact ⟨(not_le.mp ‹_›).le, (not_le.mp ‹_›).le⟩

/-- The clamp of a real is the library's. -/
theorem clamp_real_eq {q lo hi : ℚ} (hlo : lo ≤ hi) : clamp (.real q) lo hi = some (max lo (min q hi)) := by
  simp only [clamp, Option.some.injEq]
  split
  · rename_i h
    rw [max_eq_left (min_le_of_left_le h)]
  · rename_i h
    split
    · rename_i h'
      rw [min_eq_right h', max_eq_right hlo]
    · rename_i h'
      rw [min_eq_left (not_le.mp h').le, max_eq_right (not_le.mp h).le]

theorem incrementForFrequency_of_clamp {T : Nat} {x : Ext} {fc : ℚ}
    (h : clamp x (minFreq T) (maxFreq T) = some fc) :
    incrementForFrequency T x = ⌊fc * incrementPerHertz T⌋.toNat := by
  simp only [incrementForFrequency, h]
  rfl

theorem incrementForPeriod_of_clamp {T : Nat} {x : Ext} {pc : ℚ}
    (h : clamp x (minPeriod T) (maxPeriod T) = some pc) :
    incrementForPeriod T x = ⌊incrementPerHertz T / pc⌋.toNat := by
  simp only [incrementForPeriod, h]
  rfl

end Sys2Proof.Machine
end

