-- ==== Sys2Proof/Laws/PerInstr.lean ====
section
/-! SUPPORT. Per command: its opcode and argument name it in the opcode map (30_encoding.md R66). -/

namespace Sys2Proof.Laws

/-- The command's own OP and ARG are the command's row of the opcode map. -/
def OpcodeRow.Statement (i : Instr) : Prop := commandOf i.opcode i.argument = some i

theorem OpcodeRow.setInc (arg : Word) : OpcodeRow.Statement (.setInc arg) := rfl
theorem OpcodeRow.getInc : OpcodeRow.Statement .getInc := rfl
theorem OpcodeRow.setCnt (arg : Word) : OpcodeRow.Statement (.setCnt arg) := rfl
theorem OpcodeRow.getCnt : OpcodeRow.Statement .getCnt := rfl
theorem OpcodeRow.tick : OpcodeRow.Statement .tick := rfl
theorem OpcodeRow.resetPhase : OpcodeRow.Statement .resetPhase := rfl
theorem OpcodeRow.isHalf : OpcodeRow.Statement .isHalf := rfl
theorem OpcodeRow.getValue : OpcodeRow.Statement .getValue := rfl
theorem OpcodeRow.setWave (arg : Word) : OpcodeRow.Statement (.setWave arg) := rfl
theorem OpcodeRow.convFreq (arg : Word) : OpcodeRow.Statement (.convFreq arg) := rfl
theorem OpcodeRow.convPeriod (arg : Word) : OpcodeRow.Statement (.convPeriod arg) := rfl
theorem OpcodeRow.setFreq (arg : Word) : OpcodeRow.Statement (.setFreq arg) := rfl
theorem OpcodeRow.setPeriod (arg : Word) : OpcodeRow.Statement (.setPeriod arg) := rfl
theorem OpcodeRow.getMinFreq : OpcodeRow.Statement .getMinFreq := rfl
theorem OpcodeRow.getMaxFreq : OpcodeRow.Statement .getMaxFreq := rfl
theorem OpcodeRow.getMinPeriod : OpcodeRow.Statement .getMinPeriod := rfl
theorem OpcodeRow.getMaxPeriod : OpcodeRow.Statement .getMaxPeriod := rfl

end Sys2Proof.Laws
end

