-- ==== Sys2Proof/Laws/Decode.lean ====
section
/-! SUPPORT. The fields of a command word, and what the decoder answers (30_encoding.md R60, R67). -/

namespace Sys2Proof

@[simp] theorem opField_mkWord (op : Opcode) (arg : Word) : opField (mkWord op arg) = op := by
  apply BitVec.eq_of_getLsbD_eq
  intro i hi
  simp only [opField, mkWord, BitVec.getLsbD_extractLsb', BitVec.getLsbD_append, hi, decide_true, Bool.true_and]
  rw [if_neg (by omega)]
  congr 1
  omega

@[simp] theorem argField_mkWord (op : Opcode) (arg : Word) : argField (mkWord op arg) = arg := by
  apply BitVec.eq_of_getLsbD_eq
  intro i hi
  simp only [argField, mkWord, BitVec.getLsbD_extractLsb', BitVec.getLsbD_append, hi, decide_true, Bool.true_and]
  rw [if_pos (by omega)]
  congr 1
  omega

/-- A word is made of its two fields. -/
theorem mkWord_fields (w : CmdWord) : mkWord (opField w) (argField w) = w := by
  apply BitVec.eq_of_getLsbD_eq
  intro i hi
  simp only [opField, argField, mkWord, BitVec.getLsbD_append, BitVec.getLsbD_extractLsb']
  by_cases h : i < 32
  · simp [h]
  · have h8 : i - 32 < 8 := by omega
    simp [h, h8, show 32 + (i - 32) = i by omega]

/-- A word decodes to `i` exactly when its fields name `i` and the variant has it. -/
theorem decode_eq_ok_iff (v : Variant) (w : CmdWord) (i : Instr) :
    decode v w = .ok i ↔ commandOf (opField w) (argField w) = some i ∧ i.wf v = true := by
  unfold decode
  cases h : commandOf (opField w) (argField w) with
  | none => simp
  | some j =>
    simp only [Instr.wf, Needs.met, Option.some.injEq]
    cases hn : j.needs <;> simp only [] <;> (try split) <;> constructor <;> intro h'
    all_goals first
      | (injection h' with h'; subst h'; simp_all)
      | (obtain ⟨rfl, h2⟩ := h'; simp_all)
      | simp_all

/-- The fields of a command are its opcode's, and, but for kind N, its argument's. -/
theorem commandOf_eq_some (op : Opcode) (arg : Word) (i : Instr) (h : commandOf op arg = some i) :
    i.opcode = op ∧ (i.kind ≠ .n → i.argument = arg) ∧ (i.kind = .n → ∀ arg', commandOf op arg' = some i) := by
  unfold commandOf at h
  split at h <;> cases h <;> rename_i hop
  all_goals
    refine ⟨BitVec.eq_of_toNat_eq hop.symm, by simp [Instr.argument, Instr.kind], fun hk arg' => ?_⟩
    first
    | (unfold commandOf; rw [hop]; rfl)
    | cases hk

end Sys2Proof
end

