-- ==== Sys2Proof/Laws/State.lean ====
section
/-! SUPPORT. What each update of the state does to each field, so that no proof unfolds a record update. -/

namespace Sys2Proof.Machine

/-! ### respond -/

@[simp] theorem respond_cnt (s : State) (e : Bool) (d : Word) : (s.respond e d).cnt = s.cnt := rfl
@[simp] theorem respond_inc (s : State) (e : Bool) (d : Word) : (s.respond e d).inc = s.inc := rfl
@[simp] theorem respond_sel (s : State) (e : Bool) (d : Word) : (s.respond e d).sel = s.sel := rfl
@[simp] theorem respond_cfg (s : State) (e : Bool) (d : Word) : (s.respond e d).cfg = s.cfg := rfl
@[simp] theorem respond_inputs (s : State) (e : Bool) (d : Word) : (s.respond e d).inputs = s.inputs := rfl
@[simp] theorem respond_issued (s : State) (e : Bool) (d : Word) : (s.respond e d).issued = s.issued := rfl
@[simp] theorem respond_responses (s : State) (e : Bool) (d : Word) : (s.respond e d).responses = s.responses ++ [{ err := e, data := d }] := rfl
@[simp] theorem respond_memRead (s : State) (e : Bool) (d : Word) : (s.respond e d).memRead = s.memRead := rfl
@[simp] theorem respond_table (s : State) (e : Bool) (d : Word) : (s.respond e d).table = s.table := rfl
@[simp] theorem respond_effectiveSel (s : State) (e : Bool) (d : Word) : (s.respond e d).effectiveSel = s.effectiveSel := rfl

/-! ### writeCnt -/

@[simp] theorem writeCnt_cnt (s : State) (v : Phase) : (s.writeCnt v).cnt = v := rfl
@[simp] theorem writeCnt_inc (s : State) (v : Phase) : (s.writeCnt v).inc = s.inc := rfl
@[simp] theorem writeCnt_sel (s : State) (v : Phase) : (s.writeCnt v).sel = s.sel := rfl
@[simp] theorem writeCnt_cfg (s : State) (v : Phase) : (s.writeCnt v).cfg = s.cfg := rfl
@[simp] theorem writeCnt_inputs (s : State) (v : Phase) : (s.writeCnt v).inputs = s.inputs := rfl
@[simp] theorem writeCnt_issued (s : State) (v : Phase) : (s.writeCnt v).issued = s.issued := rfl
@[simp] theorem writeCnt_responses (s : State) (v : Phase) : (s.writeCnt v).responses = s.responses := rfl
@[simp] theorem writeCnt_memRead (s : State) (v : Phase) : (s.writeCnt v).memRead = s.memRead := rfl
@[simp] theorem writeCnt_table (s : State) (v : Phase) : (s.writeCnt v).table = s.table := rfl
@[simp] theorem writeCnt_effectiveSel (s : State) (v : Phase) : (s.writeCnt v).effectiveSel = s.effectiveSel := rfl

/-! ### writeInc -/

@[simp] theorem writeInc_cnt (s : State) (v : Phase) : (s.writeInc v).cnt = s.cnt := rfl
@[simp] theorem writeInc_inc (s : State) (v : Phase) : (s.writeInc v).inc = v := rfl
@[simp] theorem writeInc_sel (s : State) (v : Phase) : (s.writeInc v).sel = s.sel := rfl
@[simp] theorem writeInc_cfg (s : State) (v : Phase) : (s.writeInc v).cfg = s.cfg := rfl
@[simp] theorem writeInc_inputs (s : State) (v : Phase) : (s.writeInc v).inputs = s.inputs := rfl
@[simp] theorem writeInc_issued (s : State) (v : Phase) : (s.writeInc v).issued = s.issued := rfl
@[simp] theorem writeInc_responses (s : State) (v : Phase) : (s.writeInc v).responses = s.responses := rfl
@[simp] theorem writeInc_memRead (s : State) (v : Phase) : (s.writeInc v).memRead = s.memRead := rfl
@[simp] theorem writeInc_table (s : State) (v : Phase) : (s.writeInc v).table = s.table := rfl
@[simp] theorem writeInc_effectiveSel (s : State) (v : Phase) : (s.writeInc v).effectiveSel = s.effectiveSel := rfl

/-! ### writeSel -/

@[simp] theorem writeSel_cnt (s : State) (v : Selector) : (s.writeSel v).cnt = s.cnt := rfl
@[simp] theorem writeSel_inc (s : State) (v : Selector) : (s.writeSel v).inc = s.inc := rfl
@[simp] theorem writeSel_sel (s : State) (v : Selector) : (s.writeSel v).sel = v := rfl
@[simp] theorem writeSel_cfg (s : State) (v : Selector) : (s.writeSel v).cfg = s.cfg := rfl
@[simp] theorem writeSel_inputs (s : State) (v : Selector) : (s.writeSel v).inputs = s.inputs := rfl
@[simp] theorem writeSel_issued (s : State) (v : Selector) : (s.writeSel v).issued = s.issued := rfl
@[simp] theorem writeSel_responses (s : State) (v : Selector) : (s.writeSel v).responses = s.responses := rfl
@[simp] theorem writeSel_memRead (s : State) (v : Selector) : (s.writeSel v).memRead = s.memRead := rfl
@[simp] theorem writeSel_table (s : State) (v : Selector) : (s.writeSel v).table = s.table := rfl

/-! ### advancePhase -/

@[simp] theorem advancePhase_cnt (s : State) : (s.advancePhase).cnt = s.cnt + s.inc := rfl
@[simp] theorem advancePhase_inc (s : State) : (s.advancePhase).inc = s.inc := rfl
@[simp] theorem advancePhase_sel (s : State) : (s.advancePhase).sel = s.sel := rfl
@[simp] theorem advancePhase_cfg (s : State) : (s.advancePhase).cfg = s.cfg := rfl
@[simp] theorem advancePhase_inputs (s : State) : (s.advancePhase).inputs = s.inputs := rfl
@[simp] theorem advancePhase_issued (s : State) : (s.advancePhase).issued = s.issued := rfl
@[simp] theorem advancePhase_responses (s : State) : (s.advancePhase).responses = s.responses := rfl
@[simp] theorem advancePhase_memRead (s : State) : (s.advancePhase).memRead = s.memRead := rfl
@[simp] theorem advancePhase_table (s : State) : (s.advancePhase).table = s.table := rfl
@[simp] theorem advancePhase_effectiveSel (s : State) : (s.advancePhase).effectiveSel = s.effectiveSel := rfl

/-! ### powerOnReset -/

@[simp] theorem powerOnReset_cnt (s : State) : (s.powerOnReset).cnt = 0 := rfl
@[simp] theorem powerOnReset_inc (s : State) : (s.powerOnReset).inc = 0 := rfl
@[simp] theorem powerOnReset_sel (s : State) : (s.powerOnReset).sel = 0 := rfl
@[simp] theorem powerOnReset_cfg (s : State) : (s.powerOnReset).cfg = s.cfg := rfl
@[simp] theorem powerOnReset_inputs (s : State) : (s.powerOnReset).inputs = s.inputs := rfl
@[simp] theorem powerOnReset_issued (s : State) : (s.powerOnReset).issued = s.issued := rfl
@[simp] theorem powerOnReset_responses (s : State) : (s.powerOnReset).responses = s.responses := rfl
@[simp] theorem powerOnReset_memRead (s : State) : (s.powerOnReset).memRead = s.memRead := rfl
@[simp] theorem powerOnReset_table (s : State) : (s.powerOnReset).table = s.table := rfl

/-! ### record -/

@[simp] theorem record_cnt (s : State) (w : CmdWord) : (s.record w).cnt = s.cnt := rfl
@[simp] theorem record_inc (s : State) (w : CmdWord) : (s.record w).inc = s.inc := rfl
@[simp] theorem record_sel (s : State) (w : CmdWord) : (s.record w).sel = s.sel := rfl
@[simp] theorem record_cfg (s : State) (w : CmdWord) : (s.record w).cfg = s.cfg := rfl
@[simp] theorem record_inputs (s : State) (w : CmdWord) : (s.record w).inputs = s.inputs := rfl
@[simp] theorem record_issued (s : State) (w : CmdWord) : (s.record w).issued = s.issued ++ [w] := rfl
@[simp] theorem record_responses (s : State) (w : CmdWord) : (s.record w).responses = s.responses := rfl
@[simp] theorem record_memRead (s : State) (w : CmdWord) : (s.record w).memRead = s.memRead := rfl
@[simp] theorem record_table (s : State) (w : CmdWord) : (s.record w).table = s.table := rfl
@[simp] theorem record_effectiveSel (s : State) (w : CmdWord) : (s.record w).effectiveSel = s.effectiveSel := rfl

/-! ### issueNext -/

@[simp] theorem issueNext_cnt (s : State) (w : CmdWord) : (s.issueNext w).cnt = s.cnt := rfl
@[simp] theorem issueNext_inc (s : State) (w : CmdWord) : (s.issueNext w).inc = s.inc := rfl
@[simp] theorem issueNext_sel (s : State) (w : CmdWord) : (s.issueNext w).sel = s.sel := rfl
@[simp] theorem issueNext_cfg (s : State) (w : CmdWord) : (s.issueNext w).cfg = s.cfg := rfl
@[simp] theorem issueNext_inputs (s : State) (w : CmdWord) : (s.issueNext w).inputs = .command w :: s.inputs := rfl
@[simp] theorem issueNext_issued (s : State) (w : CmdWord) : (s.issueNext w).issued = s.issued := rfl
@[simp] theorem issueNext_responses (s : State) (w : CmdWord) : (s.issueNext w).responses = s.responses := rfl
@[simp] theorem issueNext_memRead (s : State) (w : CmdWord) : (s.issueNext w).memRead = s.memRead := rfl
@[simp] theorem issueNext_table (s : State) (w : CmdWord) : (s.issueNext w).table = s.table := rfl
@[simp] theorem issueNext_effectiveSel (s : State) (w : CmdWord) : (s.issueNext w).effectiveSel = s.effectiveSel := rfl

/-! ### deliver -/

@[simp] theorem deliver_cnt (s : State) (es : List Input) : (s.deliver es).cnt = s.cnt := rfl
@[simp] theorem deliver_inc (s : State) (es : List Input) : (s.deliver es).inc = s.inc := rfl
@[simp] theorem deliver_sel (s : State) (es : List Input) : (s.deliver es).sel = s.sel := rfl
@[simp] theorem deliver_cfg (s : State) (es : List Input) : (s.deliver es).cfg = s.cfg := rfl
@[simp] theorem deliver_inputs (s : State) (es : List Input) : (s.deliver es).inputs = es ++ s.inputs := rfl
@[simp] theorem deliver_issued (s : State) (es : List Input) : (s.deliver es).issued = s.issued := rfl
@[simp] theorem deliver_responses (s : State) (es : List Input) : (s.deliver es).responses = s.responses := rfl
@[simp] theorem deliver_memRead (s : State) (es : List Input) : (s.deliver es).memRead = s.memRead := rfl
@[simp] theorem deliver_table (s : State) (es : List Input) : (s.deliver es).table = s.table := rfl
@[simp] theorem deliver_effectiveSel (s : State) (es : List Input) : (s.deliver es).effectiveSel = s.effectiveSel := rfl

/-! ### powerOn -/

@[simp] theorem powerOn_cnt (c : Config) : (State.powerOn c).cnt = 0 := rfl
@[simp] theorem powerOn_inc (c : Config) : (State.powerOn c).inc = 0 := rfl
@[simp] theorem powerOn_sel (c : Config) : (State.powerOn c).sel = 0 := rfl
@[simp] theorem powerOn_cfg (c : Config) : (State.powerOn c).cfg = c := rfl
@[simp] theorem powerOn_inputs (c : Config) : (State.powerOn c).inputs = [] := rfl
@[simp] theorem powerOn_issued (c : Config) : (State.powerOn c).issued = [] := rfl
@[simp] theorem powerOn_responses (c : Config) : (State.powerOn c).responses = [] := rfl

/-! ### table and effective selector -/

theorem table_eq_memRead (s : State) (sel : Selector) (i : Nat) :
    s.table sel i = s.memRead (tableLength * sel.toNat + i) := rfl

theorem memRead_eq_readByte (s : State) (a : Nat) : s.memRead a = readByte a (configRom s.cfg) := rfl

theorem memRead_of_cfg_eq {s t : State} (h : t.cfg = s.cfg) (a : Nat) : t.memRead a = s.memRead a := by
  simp only [memRead_eq_readByte, h]

theorem effectiveSel_of_hasWaveSelect {s : State} (h : s.cfg.variant.hasWaveSelect = true) :
    s.effectiveSel = s.sel := by simp [State.effectiveSel, h]

theorem effectiveSel_of_base {s : State} (h : s.cfg.variant.hasWaveSelect = false) :
    s.effectiveSel = 0 := by simp [State.effectiveSel, h]

theorem effectiveSel_le_of_sel_le {s : State} (h : s.sel.toNat ≤ 6) : s.effectiveSel.toNat ≤ 6 := by
  unfold State.effectiveSel
  split
  · exact h
  · decide

end Sys2Proof.Machine
end

