-- ==== Sys2Proof/Laws/Memory.lean ====
section
/-! SUPPORT. The wavetable ROM: its canonical form, and what each address holds. -/

namespace Sys2Proof.Machine

theorem cellsFrom_wf (bs : List Byte) : ∀ low : Nat, low + bs.length ≤ romSize →
    risesFrom low (cellsFrom low bs) = true := by
  induction bs with
  | nil => intro low _; rfl
  | cons b bs ih =>
    intro low h
    simp only [List.length_cons] at h
    simp only [cellsFrom, risesFrom, ih (low + 1) (by omega), Bool.and_true, Bool.and_eq_true, decide_eq_true_eq]
    omega

/-- What an address of laid-out bytes reads as. -/
theorem readByte_cellsFrom (bs : List Byte) : ∀ low a : Nat,
    readByte a (cellsFrom low bs) = if low ≤ a then bs[a - low]? else none := by
  induction bs with
  | nil => intro low a; simp [cellsFrom, readByte]
  | cons b bs ih =>
    intro low a
    simp only [cellsFrom, readByte, ih]
    rcases Nat.lt_trichotomy a low with h | h | h
    · rw [if_neg (by omega), if_neg (by omega), if_neg (by omega)]
    · subst h; simp
    · rw [if_neg (by omega), if_pos (by omega), if_pos (by omega), show a - low = (a - (low + 1)) + 1 by omega,
        List.getElem?_cons_succ]

theorem readByte_romImage (tables : List (List Byte)) (a : Nat) :
    readByte a (romImage tables) = tables.flatten[a]? := by
  simp [romImage, readByte_cellsFrom]

/-- Rows of equal length lie one after the other. -/
theorem flatten_getElem?_of_length {α : Type} (n : Nat) : ∀ (rows : List (List α)) (k i : Nat),
    (∀ r ∈ rows, r.length = n) → i < n → rows.flatten[n * k + i]? = rows[k]?.bind fun r => r[i]? := by
  intro rows
  induction rows with
  | nil => intro k i _ _; simp
  | cons r rows ih =>
    intro k i hr hi
    have hlen : r.length = n := hr r (by simp)
    have hrest : ∀ r' ∈ rows, r'.length = n := fun r' h => hr r' (by simp [h])
    cases k with
    | zero => simp [List.getElem?_append_left (show i < r.length by omega)]
    | succ k =>
      have e : n * (k + 1) + i - r.length = n * k + i := by rw [hlen, Nat.mul_succ]; omega
      rw [List.flatten_cons, List.getElem?_append_right (by rw [hlen, Nat.mul_succ]; omega), e, ih k i hrest hi]
      simp

/-- What a configuration's validity says (70_reset_and_hazards.md R184). -/
theorem config_valid (c : Config) :
    LegalTick c.tickPeriodMs ∧ c.waveTable.length = 7 ∧
      ∀ t ∈ c.waveTable, t.length = 257 ∧ t[256]? = t[0]? := by
  have h := c.ok
  simp only [Params.valid, Params.tickPeriodOk, Params.tableCountOk, Params.tableLengthsOk, Params.tablesClosed,
    Bool.and_eq_true, decide_eq_true_iff, List.all_eq_true, beq_iff_eq] at h
  exact ⟨h.1.1.1, h.1.1.2, fun t ht => ⟨h.1.2 t ht, h.2 t ht⟩⟩

theorem flatten_length_of_config (c : Config) : c.waveTable.flatten.length = romSize := by
  obtain ⟨-, h7, hrow⟩ := config_valid c
  have hmap : c.waveTable.map List.length = List.replicate 7 257 :=
    List.eq_replicate_iff.mpr ⟨by simp [h7], fun n hn => by
      obtain ⟨t, ht, rfl⟩ := List.mem_map.mp hn
      exact (hrow t ht).1⟩
  rw [List.length_flatten, hmap]
  rfl

/-- The ROM of every configuration is in canonical form. -/
theorem configRom_wf (c : Config) : Memory.wf (configRom c) = true :=
  cellsFrom_wf _ 0 (by rw [flatten_length_of_config, Nat.zero_add])

/-- The ROM at `257 * s + i` holds `WAVE_TABLE[s][i]`, for every s and for i ≤ 256
(20_memory.md R40). -/
theorem readByte_configRom (c : Config) (s i : Nat) (hi : i < 257) :
    readByte (257 * s + i) (configRom c) = waveEntry c s i := by
  rw [configRom, readByte_romImage, waveEntry]
  exact flatten_getElem?_of_length 257 _ s i (fun r hr => ((config_valid c).2.2 r hr).1) hi

/-- Each entry in range exists (00_scope.md R11). -/
theorem waveEntry_exists (c : Config) (s i : Nat) (hs : s ≤ 6) (hi : i ≤ 256) : ∃ b, waveEntry c s i = some b := by
  obtain ⟨-, h7, hrow⟩ := config_valid c
  have hlt : s < c.waveTable.length := by omega
  have hlen := (hrow _ (List.getElem_mem hlt)).1
  refine ⟨(c.waveTable[s])[i]'(by omega), ?_⟩
  simp [waveEntry, List.getElem?_eq_getElem hlt, List.getElem?_eq_getElem (show i < (c.waveTable[s]).length by omega)]

/-- Entry 256 equals entry 0 in each table (00_scope.md R11). -/
theorem waveEntry_closed (c : Config) (s : Nat) : waveEntry c s 256 = waveEntry c s 0 := by
  unfold waveEntry
  cases h : c.waveTable[s]? with
  | none => rfl
  | some t => exact ((config_valid c).2.2 t (List.mem_of_getElem? h)).2

/-- Nothing is read outside the ROM. -/
theorem readByte_configRom_outside (c : Config) (a : Nat) (h : romSize ≤ a) : readByte a (configRom c) = none := by
  rw [configRom, readByte_romImage]
  exact List.getElem?_eq_none (by rw [flatten_length_of_config]; exact h)

/-- A table entry in range is the configuration's wave entry (41_wavetable_interpolator.md R100). -/
theorem table_eq_waveEntry (s : State) (sel : Selector) (i : Nat) (hi : i ≤ 256) :
    s.table sel i = waveEntry s.cfg sel.toNat i :=
  readByte_configRom s.cfg sel.toNat i (by omega)

/-- Two address spaces in canonical form with the same byte at every address are the same data. -/
theorem memory_ext : ∀ (m m' : Memory) (low : Nat), risesFrom low m = true → risesFrom low m' = true →
    (∀ a, readByte a m = readByte a m') → m = m' := by
  have below : ∀ (m : Memory) (low a : Nat), risesFrom low m = true → a < low → readByte a m = none := by
    intro m
    induction m with
    | nil => intros; rfl
    | cons p m ih =>
      intro low a h ha
      obtain ⟨a', b⟩ := p
      simp only [risesFrom, Bool.and_eq_true, decide_eq_true_eq] at h
      rw [readByte, if_neg (by omega)]
      exact ih (a' + 1) a h.2 (by omega)
  intro m
  induction m with
  | nil =>
    intro m' low _ h' he
    cases m' with
    | nil => rfl
    | cons p m' => have := he p.1; simp [readByte] at this
  | cons p m ih =>
    intro m' low h h' he
    cases m' with
    | nil => have := he p.1; simp [readByte] at this
    | cons p' m' =>
      obtain ⟨a, b⟩ := p
      obtain ⟨a', b'⟩ := p'
      simp only [risesFrom, Bool.and_eq_true, decide_eq_true_eq] at h h'
      have haa : a = a' := by
        rcases Nat.lt_trichotomy a a' with hlt | heq | hgt
        · have h1 := he a
          rw [readByte, if_pos rfl, readByte, if_neg (by omega), below m' (a' + 1) a h'.2 (by omega)] at h1
          exact absurd h1 (by simp)
        · exact heq
        · have h1 := he a'
          rw [readByte, if_neg (by omega), below m (a + 1) a' h.2 (by omega), readByte, if_pos rfl] at h1
          exact absurd h1 (by simp)
      subst haa
      have hb : b = b' := by simpa [readByte] using he a
      subst hb
      refine congrArg _ (ih m' (a + 1) h.2 h'.2 fun x => ?_)
      by_cases hx : x = a
      · subst hx
        rw [below m (x + 1) x h.2 (by omega), below m' (x + 1) x h'.2 (by omega)]
      · have h1 := he x
        rwa [readByte, if_neg (by omega), readByte, if_neg (by omega)] at h1

end Sys2Proof.Machine
end

