-- ==== Sys2Proof/Laws/Exec.lean ====
section
/-! SUPPORT. What each command does, said once: the equation of its meaning, and what every command has in
common. -/

namespace Sys2Proof.Machine

/-! ### Shared operations -/

theorem answer_eq (d : Word) (s : State) : answer d s = .next (s.respond false d) := rfl

theorem raiseIllegalCommand_eq (op : Opcode) (s : State) : raiseIllegalCommand op s = .next (s.respond true 0) := rfl

theorem ifFreqConv_of_present {op : Opcode} {s : State} {out : Host.Outcome State Fault Refusal}
    (h : s.cfg.variant.hasFreqConv = true) : ifFreqConv op s out = out := by simp [ifFreqConv, h]

theorem ifFreqConv_of_absent {op : Opcode} {s : State} {out : Host.Outcome State Fault Refusal}
    (h : s.cfg.variant.hasFreqConv = false) : ifFreqConv op s out = .next (s.respond true 0) := by
  simp [ifFreqConv, h, raiseIllegalCommand_eq]

theorem operandU_toNat (arg : Word) : (operandU arg).toNat = arg.toNat % 2 ^ 24 := by
  simp [operandU, BitVec.toNat_setWidth]

theorem operandS_toNat (arg : Word) : (operandS arg).toNat = if arg.toNat ≤ 6 then arg.toNat else 0 := by
  unfold operandS
  split
  · rw [BitVec.toNat_setWidth, Nat.mod_eq_of_lt (by omega)]
  · rfl

theorem phaseIndex_eq (c : Phase) : phaseIndex c = c.toNat / 2 ^ 16 := by
  have := c.isLt
  rw [phaseIndex, BitVec.extractLsb'_toNat, Nat.shiftRight_eq_div_pow, Nat.mod_eq_of_lt (by omega)]

theorem phaseFrac_eq (c : Phase) : phaseFrac c = c.toNat % 2 ^ 16 := by
  rw [phaseFrac, BitVec.extractLsb'_toNat, Nat.shiftRight_zero]

theorem phaseIndex_le (c : Phase) : phaseIndex c ≤ 255 := by
  have := c.isLt
  rw [phaseIndex_eq]
  omega

theorem phaseFrac_lt (c : Phase) : phaseFrac c < 65536 := by
  rw [phaseFrac_eq]
  exact Nat.mod_lt _ (by norm_num)

/-- The interpolation as a weighted sum (41_wavetable_interpolator.md R103). -/
theorem interpolate_eq_weighted (low high : Byte) (frac : Nat) :
    interpolate low high frac = (low.toNat : Int) * (65536 - (frac : Int)) + (high.toNat : Int) * (frac : Int) := by
  unfold interpolate
  ring

theorem interpolate_bounds (low high : Byte) (frac : Nat) (h : frac ≤ 65536) :
    0 ≤ interpolate low high frac ∧ interpolate low high frac ≤ 255 * 65536 := by
  have hl := low.isLt
  have hh := high.isLt
  rw [interpolate_eq_weighted]
  constructor <;> nlinarith

/-- A non-negative number below 2^32 as a word. -/
theorem ofInt32_toNat {r : Int} (h0 : 0 ≤ r) (h1 : r < 2 ^ 32) : ((BitVec.ofInt 32 r).toNat : Int) = r := by
  rw [BitVec.toNat_ofInt]
  omega

/-! ### Equations -/

theorem exec_setInc (arg : Word) (s : State) :
    exec (.setInc arg) s = .next ((s.writeInc (operandU arg)).respond false 0) := rfl

theorem exec_getInc (s : State) : exec .getInc s = .next (s.respond false (s.inc.setWidth 32)) := rfl

theorem exec_setCnt (arg : Word) (s : State) :
    exec (.setCnt arg) s = .next ((s.writeCnt (operandU arg)).respond false 0) := rfl

theorem exec_getCnt (s : State) : exec .getCnt s = .next (s.respond false (s.cnt.setWidth 32)) := rfl

theorem exec_tick (s : State) : exec .tick s = .next (s.advancePhase.respond false 0) := rfl

theorem exec_resetPhase (s : State) : exec .resetPhase s = .next ((s.writeCnt 0).respond false 0) := rfl

theorem exec_isHalf (s : State) : exec .isHalf s = .next (s.respond false (boolWord (pastHalf s.cnt))) := rfl

theorem tickEvent_eq (s : State) : tickEvent s = .next s.advancePhase := rfl

/-- GET_VALUE where its two entries exist. -/
theorem exec_getValue_of_table {s : State} {low high : Byte}
    (hl : s.table s.effectiveSel (phaseIndex s.cnt) = some low)
    (hh : s.table s.effectiveSel (phaseIndex s.cnt + 1) = some high) :
    exec .getValue s = .next (s.respond false (BitVec.ofInt 32 (interpolate low high (phaseFrac s.cnt)))) := by
  show execGetValue s = _
  simp only [execGetValue, hl, hh, answer_eq]

/-- The two entries exist whenever the selector is legal. -/
theorem table_entries_exist {s : State} (h : s.effectiveSel.toNat ≤ 6) (i : Nat) (hi : i ≤ 256) :
    ∃ b, s.table s.effectiveSel i = some b := by
  rw [table_eq_waveEntry s _ i hi]
  exact waveEntry_exists s.cfg _ i h hi

/-- GET_VALUE with a legal selector. -/
theorem exec_getValue {s : State} (h : s.effectiveSel.toNat ≤ 6) :
    ∃ low high, s.table s.effectiveSel (phaseIndex s.cnt) = some low ∧
      s.table s.effectiveSel (phaseIndex s.cnt + 1) = some high ∧
      exec .getValue s = .next (s.respond false (BitVec.ofInt 32 (interpolate low high (phaseFrac s.cnt)))) := by
  have hi := phaseIndex_le s.cnt
  obtain ⟨low, hl⟩ := table_entries_exist h (phaseIndex s.cnt) (by omega)
  obtain ⟨high, hh⟩ := table_entries_exist h (phaseIndex s.cnt + 1) (by omega)
  exact ⟨low, high, hl, hh, exec_getValue_of_table hl hh⟩

/-- If GET_VALUE answers a next state, it only responded. -/
theorem exec_getValue_next {s t : State} (h : exec .getValue s = .next t) : ∃ d, t = s.respond false d := by
  change execGetValue s = _ at h
  simp only [execGetValue] at h
  split at h
  · exact ⟨_, (Host.Outcome.next.inj h).symm⟩
  · cases h
  · cases h

theorem exec_setWave (arg : Word) (s : State) :
    exec (.setWave arg) s =
      .next (if s.cfg.variant.hasWaveSelect then (s.writeSel (operandS arg)).respond false 0
        else s.respond true 0) := by
  show execSetWave arg s = _
  unfold execSetWave
  split <;> rfl

theorem exec_convFreq (arg : Word) (s : State) :
    exec (.convFreq arg) s =
      .next (if s.cfg.variant.hasFreqConv then s.respond false (BitVec.ofNat 32 (s.iff arg))
        else s.respond true 0) := by
  show execConvFreq arg s = _
  unfold execConvFreq ifFreqConv
  split <;> rfl

theorem exec_convPeriod (arg : Word) (s : State) :
    exec (.convPeriod arg) s =
      .next (if s.cfg.variant.hasFreqConv then s.respond false (BitVec.ofNat 32 (s.ifp arg))
        else s.respond true 0) := by
  show execConvPeriod arg s = _
  unfold execConvPeriod ifFreqConv
  split <;> rfl

theorem exec_setFreq (arg : Word) (s : State) :
    exec (.setFreq arg) s =
      .next (if s.cfg.variant.hasFreqConv then (s.writeInc (BitVec.ofNat 24 (s.iff arg))).respond false 0
        else s.respond true 0) := by
  show execSetFreq arg s = _
  unfold execSetFreq ifFreqConv
  split <;> rfl

theorem exec_setPeriod (arg : Word) (s : State) :
    exec (.setPeriod arg) s =
      .next (if s.cfg.variant.hasFreqConv then (s.writeInc (BitVec.ofNat 24 (s.ifp arg))).respond false 0
        else s.respond true 0) := by
  show execSetPeriod arg s = _
  unfold execSetPeriod ifFreqConv
  split <;> rfl

theorem exec_getMinFreq (s : State) :
    exec .getMinFreq s =
      .next (if s.cfg.variant.hasFreqConv then s.respond false (roundF32 (minFreq s.cfg.tickPeriodMs))
        else s.respond true 0) := by
  show execGetMinFreq s = _
  unfold execGetMinFreq ifFreqConv
  split <;> rfl

theorem exec_getMaxFreq (s : State) :
    exec .getMaxFreq s =
      .next (if s.cfg.variant.hasFreqConv then s.respond false (roundF32 (maxFreq s.cfg.tickPeriodMs))
        else s.respond true 0) := by
  show execGetMaxFreq s = _
  unfold execGetMaxFreq ifFreqConv
  split <;> rfl

theorem exec_getMinPeriod (s : State) :
    exec .getMinPeriod s =
      .next (if s.cfg.variant.hasFreqConv then s.respond false (roundF32 (minPeriod s.cfg.tickPeriodMs))
        else s.respond true 0) := by
  show execGetMinPeriod s = _
  unfold execGetMinPeriod ifFreqConv
  split <;> rfl

theorem exec_getMaxPeriod (s : State) :
    exec .getMaxPeriod s =
      .next (if s.cfg.variant.hasFreqConv then s.respond false (roundF32 (maxPeriod s.cfg.tickPeriodMs))
        else s.respond true 0) := by
  show execGetMaxPeriod s = _
  unfold execGetMaxPeriod ifFreqConv
  split <;> rfl

/-! ### What every command has in common -/

/-- Everything a command can do to the registers: it writes the value its rule names to the one register
its rule names, or none, and returns one response; a command whose option is absent returns ERR = 1,
DATA = 0 and writes nothing. -/
theorem exec_cases {i : Instr} {s t : State} (h : exec i s = .next t) :
    (i.wf s.cfg.variant = false ∧ t = s.respond true 0) ∨
    (i.wf s.cfg.variant = true ∧
      ((∃ d, t = s.respond false d ∧ i.opcode ∈ [0x02, 0x04, 0x07, 0x10, 0x20, 0x21, 0x24, 0x25, 0x26, 0x27]) ∨
       (∃ v, t = (s.writeInc v).respond false 0 ∧ i.opcode ∈ [0x01, 0x22, 0x23]) ∨
       (∃ v, t = (s.writeCnt v).respond false 0 ∧ i.opcode ∈ [0x03, 0x05, 0x06]) ∨
       (∃ arg, t = (s.writeSel (operandS arg)).respond false 0 ∧ i = .setWave arg))) := by
  cases i with
  | getValue =>
    obtain ⟨d, rfl⟩ := exec_getValue_next h
    exact .inr ⟨rfl, .inl ⟨d, rfl, by decide⟩⟩
  | setInc arg => exact .inr ⟨rfl, .inr (.inl ⟨_, (Host.Outcome.next.inj h).symm, by simp [Instr.opcode]⟩)⟩
  | getInc => exact .inr ⟨rfl, .inl ⟨_, (Host.Outcome.next.inj h).symm, by decide⟩⟩
  | setCnt arg => exact .inr ⟨rfl, .inr (.inr (.inl ⟨_, (Host.Outcome.next.inj h).symm, by simp [Instr.opcode]⟩))⟩
  | getCnt => exact .inr ⟨rfl, .inl ⟨_, (Host.Outcome.next.inj h).symm, by decide⟩⟩
  | tick => exact .inr ⟨rfl, .inr (.inr (.inl ⟨_, (Host.Outcome.next.inj h).symm, by decide⟩))⟩
  | resetPhase => exact .inr ⟨rfl, .inr (.inr (.inl ⟨_, (Host.Outcome.next.inj h).symm, by decide⟩))⟩
  | isHalf => exact .inr ⟨rfl, .inl ⟨_, (Host.Outcome.next.inj h).symm, by decide⟩⟩
  | setWave arg =>
    rw [exec_setWave] at h
    split at h <;> rename_i hv <;> cases h
    · exact .inr ⟨hv, .inr (.inr (.inr ⟨arg, rfl, rfl⟩))⟩
    · exact .inl ⟨by simpa [Instr.wf, Instr.needs, Needs.met] using hv, rfl⟩
  | convFreq arg =>
    rw [exec_convFreq] at h
    split at h <;> rename_i hv <;> cases h
    · exact .inr ⟨hv, .inl ⟨_, rfl, by simp [Instr.opcode]⟩⟩
    · exact .inl ⟨by simpa [Instr.wf, Instr.needs, Needs.met] using hv, rfl⟩
  | convPeriod arg =>
    rw [exec_convPeriod] at h
    split at h <;> rename_i hv <;> cases h
    · exact .inr ⟨hv, .inl ⟨_, rfl, by simp [Instr.opcode]⟩⟩
    · exact .inl ⟨by simpa [Instr.wf, Instr.needs, Needs.met] using hv, rfl⟩
  | setFreq arg =>
    rw [exec_setFreq] at h
    split at h <;> rename_i hv <;> cases h
    · exact .inr ⟨hv, .inr (.inl ⟨_, rfl, by simp [Instr.opcode]⟩)⟩
    · exact .inl ⟨by simpa [Instr.wf, Instr.needs, Needs.met] using hv, rfl⟩
  | setPeriod arg =>
    rw [exec_setPeriod] at h
    split at h <;> rename_i hv <;> cases h
    · exact .inr ⟨hv, .inr (.inl ⟨_, rfl, by simp [Instr.opcode]⟩)⟩
    · exact .inl ⟨by simpa [Instr.wf, Instr.needs, Needs.met] using hv, rfl⟩
  | getMinFreq =>
    rw [exec_getMinFreq] at h
    split at h <;> rename_i hv <;> cases h
    · exact .inr ⟨hv, .inl ⟨_, rfl, by simp [Instr.opcode]⟩⟩
    · exact .inl ⟨by simpa [Instr.wf, Instr.needs, Needs.met] using hv, rfl⟩
  | getMaxFreq =>
    rw [exec_getMaxFreq] at h
    split at h <;> rename_i hv <;> cases h
    · exact .inr ⟨hv, .inl ⟨_, rfl, by simp [Instr.opcode]⟩⟩
    · exact .inl ⟨by simpa [Instr.wf, Instr.needs, Needs.met] using hv, rfl⟩
  | getMinPeriod =>
    rw [exec_getMinPeriod] at h
    split at h <;> rename_i hv <;> cases h
    · exact .inr ⟨hv, .inl ⟨_, rfl, by simp [Instr.opcode]⟩⟩
    · exact .inl ⟨by simpa [Instr.wf, Instr.needs, Needs.met] using hv, rfl⟩
  | getMaxPeriod =>
    rw [exec_getMaxPeriod] at h
    split at h <;> rename_i hv <;> cases h
    · exact .inr ⟨hv, .inl ⟨_, rfl, by simp [Instr.opcode]⟩⟩
    · exact .inl ⟨by simpa [Instr.wf, Instr.needs, Needs.met] using hv, rfl⟩

/-- Every command answers a next state, but for GET_VALUE with an illegal selector. -/
theorem exec_completes {i : Instr} {s : State} (h : i = .getValue → s.effectiveSel.toNat ≤ 6) :
    ∃ t, exec i s = .next t := by
  cases i with
  | getValue =>
    obtain ⟨low, high, -, -, he⟩ := exec_getValue (h rfl)
    exact ⟨_, he⟩
  | setWave arg => exact ⟨_, exec_setWave arg s⟩
  | convFreq arg => exact ⟨_, exec_convFreq arg s⟩
  | convPeriod arg => exact ⟨_, exec_convPeriod arg s⟩
  | setFreq arg => exact ⟨_, exec_setFreq arg s⟩
  | setPeriod arg => exact ⟨_, exec_setPeriod arg s⟩
  | getMinFreq => exact ⟨_, exec_getMinFreq s⟩
  | getMaxFreq => exact ⟨_, exec_getMaxFreq s⟩
  | getMinPeriod => exact ⟨_, exec_getMinPeriod s⟩
  | getMaxPeriod => exact ⟨_, exec_getMaxPeriod s⟩
  | _ => exact ⟨_, rfl⟩

end Sys2Proof.Machine
end

