-- ==== Sys2Proof/Laws/Step.lean ====
section
/-! SUPPORT. What a step does, said once, and runs. -/

namespace Sys2Proof.Machine

theorem step_idle {s : State} (h : s.inputs = []) : step s = .next s := by
  simp [step, stepOnce, State.takeInput, h]

theorem step_input {s : State} {e : Input} {rest : List Input} (h : s.inputs = e :: rest) :
    step s = performInput e { s with inputs := rest } := by
  simp [step, stepOnce, State.takeInput, h]

theorem performCommand_ok {w : CmdWord} {s : State} {i : Instr} (h : decode s.cfg.variant w = .ok i) :
    performCommand w s = exec i (s.record w) := by
  simp [performCommand, h]

theorem performCommand_error {w : CmdWord} {s : State} {r : Reject} (h : decode s.cfg.variant w = .error r) :
    performCommand w s = .next ((s.record w).respond true 0) := by
  simp [performCommand, h, raiseIllegalCommand_eq]

/-- Everything a step can do. -/
theorem step_cases {s t : State} (h : step s = .next t) :
    (s.inputs = [] ∧ t = s) ∨
    ∃ e rest, s.inputs = e :: rest ∧
      ((e = .tick ∧ t = { s with inputs := rest }.advancePhase) ∨
       (e = .powerOnReset ∧ t = { s with inputs := rest }.powerOnReset) ∨
       ∃ w, e = .command w ∧
        ((∃ i, decode s.cfg.variant w = .ok i ∧ exec i ({ s with inputs := rest }.record w) = .next t) ∨
         (∃ r, decode s.cfg.variant w = .error r ∧ t = ({ s with inputs := rest }.record w).respond true 0))) := by
  cases hi : s.inputs with
  | nil =>
    rw [step_idle hi] at h
    exact .inl ⟨rfl, (Host.Outcome.next.inj h).symm⟩
  | cons e rest =>
    rw [step_input hi] at h
    refine .inr ⟨e, rest, rfl, ?_⟩
    cases e with
    | tick => exact .inl ⟨rfl, (Host.Outcome.next.inj h).symm⟩
    | powerOnReset => exact .inr (.inl ⟨rfl, (Host.Outcome.next.inj h).symm⟩)
    | command w =>
      refine .inr (.inr ⟨w, rfl, ?_⟩)
      change performCommand w { s with inputs := rest } = _ at h
      cases hd : decode s.cfg.variant w with
      | ok i => exact .inl ⟨i, rfl, by rwa [performCommand_ok (s := { s with inputs := rest }) hd] at h⟩
      | error r =>
        rw [performCommand_error (s := { s with inputs := rest }) hd] at h
        exact .inr ⟨r, rfl, (Host.Outcome.next.inj h).symm⟩

@[simp] theorem runFor_zero (s : State) : runFor 0 s = .next s := rfl

/-- One step of a run of any machine that goes on. -/
theorem core_run_succ (M : Host.Core) (k : Nat) {s t : M.State} (h : M.step s = .next t) :
    M.run (k + 1) s = M.run k t := by
  simp only [Host.Core.run, h]

theorem runFor_succ {s t : State} {k : Nat} (h : step s = .next t) : runFor (k + 1) s = runFor k t :=
  core_run_succ Sys2Proof.core k h

theorem step_tick {s : State} {rest : List Input} (h : s.inputs = .tick :: rest) :
    step s = .next { s with inputs := rest }.advancePhase := step_input h

theorem step_deliver_tick (s : State) (es : List Input) :
    step (s.deliver (.tick :: es)) = .next (s.advancePhase.deliver es) :=
  step_tick (s := s.deliver (.tick :: es)) (rest := es ++ s.inputs) rfl

theorem step_deliver_command_ok {s : State} {w : CmdWord} {i : Instr} (es : List Input)
    (h : decode s.cfg.variant w = .ok i) :
    step (s.deliver (.command w :: es)) = exec i ((s.deliver es).record w) := by
  rw [step_input (e := .command w) (rest := es ++ s.inputs) rfl]
  exact performCommand_ok (s := s.deliver es) h

end Sys2Proof.Machine
end

