-- ==== Sys2Proof/Tests/Slice0.lean ====
section
/-! SUPPORT. Tests. Expected values are those of spec/95_test_vectors.md (row or table named at each), or
worked from the rule named; the words are written from 30_encoding.md R66. -/

-- One theorem after another: in parallel the kernel's evaluations ask for more threads than memory allows.
set_option Elab.async false

namespace Sys2Proof.Tests

open Sys2Proof Sys2Proof.Machine

/-! ## The test configurations of 95_test_vectors.md -/

def tstRamp : List Byte := (List.range 256).map (BitVec.ofNat 8) ++ [0]
def tstDown : List Byte := (List.range 256).map (fun i => BitVec.ofNat 8 (255 - i)) ++ [255]
def tstSq : List Byte := List.replicate 128 255 ++ List.replicate 128 0 ++ [255]
def tstMid : List Byte := List.replicate 257 128

def params (T : Nat) (v : Variant) : Params where
  tickPeriodMs := T
  variant := v
  waveTable := [tstRamp, tstDown, tstSq, tstMid, tstMid, tstMid, tstMid]

def base : Variant := { hasWaveSelect := false, hasFreqConv := false }

theorem tc1_valid : (params 1 Variant.full).valid = true := by decide +kernel
theorem tc0_valid : (params 1 base).valid = true := by decide +kernel

/-- Configuration TC1. -/
def tc1 : Config := { toParams := params 1 Variant.full, ok := tc1_valid }
/-- Configuration TC0. -/
def tc0 : Config := { toParams := params 1 base, ok := tc0_valid }

/-- A state of configuration `c` with the three registers as given. -/
def st (c : Config) (cnt inc : Phase) (sel : Selector) : State :=
  ((State.powerOn c).writeCnt cnt).writeInc inc |>.writeSel sel

/-- The registers after an outcome. -/
def regs : Host.Outcome State Fault Refusal → Option (Phase × Phase × Selector)
  | .next s => some (s.cnt, s.inc, s.sel)
  | _ => none

/-- The responses after an outcome. -/
def resp : Host.Outcome State Fault Refusal → List Response
  | .next s => s.responses
  | _ => []

def ok (d : Word) : List Response := [{ err := false, data := d }]
def bad : List Response := [{ err := true, data := 0 }]

/-- The outcome of the word `w` as the next command. -/
def run1 (s : State) (w : CmdWord) : Host.Outcome State Fault Refusal := step (s.issueNext w)

/-! ## Decoding: one word per command (30_encoding.md R66), and illegal words (R67) -/

theorem test_decode_set_inc : decode Variant.full 0x01_01234567#40 = .ok (.setInc 0x01234567) := by decide
theorem test_decode_get_inc : decode Variant.full 0x02_FFFFFFFF#40 = .ok .getInc := by decide
theorem test_decode_set_cnt : decode Variant.full 0x03_FFFFFFF0#40 = .ok (.setCnt 0xFFFFFFF0) := by decide
theorem test_decode_get_cnt : decode Variant.full 0x04_FFFFFFFF#40 = .ok .getCnt := by decide
theorem test_decode_tick : decode Variant.full 0x05_ABCDEF01#40 = .ok .tick := by decide
theorem test_decode_reset_phase : decode Variant.full 0x06_00000000#40 = .ok .resetPhase := by decide
theorem test_decode_is_half : decode Variant.full 0x07_00000000#40 = .ok .isHalf := by decide
theorem test_decode_get_value : decode Variant.full 0x10_00000000#40 = .ok .getValue := by decide
theorem test_decode_set_wave : decode Variant.full 0x11_00000100#40 = .ok (.setWave 0x100) := by decide
theorem test_decode_conv_freq : decode Variant.full 0x20_3F800000#40 = .ok (.convFreq 0x3F800000) := by decide
theorem test_decode_conv_period : decode Variant.full 0x21_3F000000#40 = .ok (.convPeriod 0x3F000000) := by decide
theorem test_decode_set_freq : decode Variant.full 0x22_3F800000#40 = .ok (.setFreq 0x3F800000) := by decide
theorem test_decode_set_period : decode Variant.full 0x23_40000000#40 = .ok (.setPeriod 0x40000000) := by decide
theorem test_decode_get_min_freq : decode Variant.full 0x24_00000000#40 = .ok .getMinFreq := by decide
theorem test_decode_get_max_freq : decode Variant.full 0x25_00000000#40 = .ok .getMaxFreq := by decide
theorem test_decode_get_min_period : decode Variant.full 0x26_00000000#40 = .ok .getMinPeriod := by decide
theorem test_decode_get_max_period : decode Variant.full 0x27_00000000#40 = .ok .getMaxPeriod := by decide
theorem test_decode_all_zero : decode Variant.full 0x00_00000000#40 = .error (.unassigned 0) := by decide
theorem test_decode_all_ones : decode Variant.full 0xFF_FFFFFFFF#40 = .error (.unassigned 0xFF) := by decide
theorem test_decode_gap : decode Variant.full 0x12_00000002#40 = .error (.unassigned 0x12) := by decide
theorem test_decode_base_wave : decode base 0x11_00000002#40 = .error .waveSelectAbsent := by decide
theorem test_decode_base_freq : decode base 0x22_3F800000#40 = .error (.freqConvAbsent 0x22) := by decide
theorem test_encode_set_cnt : encode (.setCnt 0xFFFFFFF0) = 0x03_FFFFFFF0#40 := by decide
theorem test_encode_tick : encode .tick = 0x05_00000000#40 := by decide
theorem test_table_word : decodeTableWord 40 0x23_40000000 = some (.setPeriod 0x40000000) := by decide

/-! ## Well-formedness: each check refuses an ill-formed term (70_reset_and_hazards.md R184) -/

def refusal (p : Params) : Option ConfigRefusal :=
  match p.configure with
  | .ok _ => none
  | .error r => some r

theorem test_refuses_tick_zero : refusal (params 0 base) = some .tickPeriodOutOfRange := by decide +kernel
theorem test_refuses_tick_high : refusal (params (2 ^ 32) base) = some .tickPeriodOutOfRange := by decide +kernel
theorem test_takes_tick_highest : refusal (params (2 ^ 32 - 1) base) = none := by decide +kernel
theorem test_refuses_six_tables :
    refusal { params 1 base with waveTable := List.replicate 6 tstMid } = some .tableCount := by decide +kernel
theorem test_refuses_short_table :
    refusal { params 1 base with waveTable := List.replicate 7 (tstMid.drop 1) } = some .tableLength := by
  decide +kernel
theorem test_refuses_open_table :
    refusal { params 1 base with waveTable := List.replicate 7 (1 :: tstMid.drop 1) } = some .tableNotClosed := by
  decide +kernel
theorem test_wf_wave : (Instr.setWave 2).wf base = false := by decide
theorem test_wf_freq : (Instr.convFreq 0).wf base = false := by decide
theorem test_rom_not_rising : Memory.wf [(1, 5), (1, 6)] = false := by decide
theorem test_rom_outside : Memory.wf [(1799, 5)] = false := by decide

/-! ## Phase accumulator family: rows A1 to A19 -/

theorem test_set_inc_A1 : regs (run1 (st tc1 0 0 0) 0x01_01234567) = some (0, 0x234567, 0) := by decide +kernel
theorem test_get_inc_A4 : resp (run1 (st tc1 0 0x234567 0) 0x02_FFFFFFFF) = ok 0x00234567 := by decide +kernel
theorem test_set_cnt_A6 : regs (run1 (st tc1 5 7 3) 0x03_01000000) = some (0, 7, 3) := by decide +kernel
theorem test_get_cnt_A7 : resp (run1 (st tc1 0xFFFFF0 0 0) 0x04_00000000) = ok 0x00FFFFF0 := by decide +kernel
theorem test_tick_A8 : regs (run1 (st tc1 0xFFFFF0 0x20 0) 0x05_00000000) = some (0x10, 0x20, 0) := by
  decide +kernel
theorem test_tick_A11 : regs (run1 (st tc1 0xFFFFFF 0xFFFFFF 0) 0x05_ABCDEF01) = some (0xFFFFFE, 0xFFFFFF, 0) := by
  decide +kernel
theorem test_reset_phase_A13 : regs (run1 (st tc1 0x123456 0x10 3) 0x06_00000000) = some (0, 0x10, 3) := by
  decide +kernel
theorem test_is_half_A15 : resp (run1 (st tc1 0x800000 0 0) 0x07_00000000) = ok 0 := by decide +kernel
theorem test_is_half_A16 : resp (run1 (st tc1 0x800001 0 0) 0x07_00000000) = ok 1 := by decide +kernel
theorem test_tick_event_A19 :
    step ((st tc1 0xFFFFF0 0x20 0).deliver [.tick]) = .next (st tc1 0x10 0x20 0) := rfl

/-! ## Wavetable family: the GET_VALUE table, rows W3 and W4, the base variant -/

theorem test_get_value_falling : resp (run1 (st tc1 0xFFFFFF 0 1) 0x10_00000000) = ok 0x00FEFF01 := by
  decide +kernel
theorem test_set_wave_W3 : regs (run1 (st tc1 0 0 6) 0x11_00000007) = some (0, 0, 0) := by decide +kernel
theorem test_base_set_wave : resp (run1 (st tc0 0 0 0) 0x11_00000002) = bad := by decide +kernel
theorem test_base_get_value : resp (run1 (st tc0 0x123456 0 0) 0x10_00000000) = ok 0x00123456 := by decide +kernel

/-! ## Frequency converter family: the table at T = 1, and the constants -/

theorem test_conv_freq_440 : resp (run1 (st tc1 0 0 0) 0x20_43DC0000) = ok 0x0070A3D7 := by decide +kernel
theorem test_conv_freq_nan : resp (run1 (st tc1 0 0 0) 0x20_7FC00000) = ok 1 := by decide +kernel
theorem test_conv_period_100 : resp (run1 (st tc1 0 0 0) 0x21_42C80000) = ok 0x000000A7 := by decide +kernel
theorem test_conv_period_above : resp (run1 (st tc1 0 0 0) 0x21_3B03126F) = ok 0x007FFFFF := by decide +kernel
theorem test_set_freq_1 : regs (run1 (st tc1 0x123456 0 3) 0x22_3F800000) = some (0x123456, 0x004189, 3) := by
  decide +kernel
theorem test_set_freq_neg_inf : regs (run1 (st tc1 0 0 0) 0x22_FF800000) = some (0, 1, 0) := by decide +kernel
theorem test_set_period_2 : regs (run1 (st tc1 0x123456 0 3) 0x23_40000000) = some (0x123456, 0x0020C4, 3) := by
  decide +kernel
theorem test_set_period_zero : regs (run1 (st tc1 0 0 0) 0x23_80000000) = some (0, 0x800000, 0) := by decide +kernel
theorem test_get_min_freq : resp (run1 (st tc1 0 0 0) 0x24_00000000) = ok 0x387A0000 := by decide +kernel
theorem test_get_max_freq : resp (run1 (st tc1 0 0 0) 0x25_00000000) = ok 0x43FA0000 := by decide +kernel
theorem test_get_min_period : resp (run1 (st tc1 0 0 0) 0x26_00000000) = ok 0x3B03126F := by decide +kernel
theorem test_get_max_period : resp (run1 (st tc1 0 0 0) 0x27_00000000) = ok 0x4683126F := by decide +kernel
theorem test_constants_T3 : [minFreq 3, maxFreq 3, minPeriod 3, maxPeriod 3].map roundF32
    = [0x37A6AAAB, 0x4326AAAB, 0x3BC49BA6, 0x47449BA6] := by decide +kernel
theorem test_constants_T11 : [minFreq 11, maxFreq 11, minPeriod 11, maxPeriod 11].map roundF32
    = [0x36B5D174, 0x4235D174, 0x3CB43958, 0x48343958] := by decide +kernel
theorem test_illegal_word : run1 (st tc1 1 2 3) 0x80_00000000
    = .next (((st tc1 1 2 3).record 0x80_00000000).respond true 0) := rfl

/-! ## Assembler (30_encoding.md R69), with the words of programs P2 to P4 -/

theorem test_asm_names : assembleLine "SET_WAVE TRIANGLE ; comment".toList = some [0x11_00000001#40] := by decide +kernel
theorem test_asm_real : assembleLine "SET_PERIOD 0.1".toList = some [0x23_3DCCCCCD#40] := by decide +kernel
theorem test_asm_bits : assembleLine "SET_FREQ bits(0x43FA0000)".toList = some [0x22_43FA0000#40] := by decide +kernel
theorem test_asm_inf : assembleLine "CONV_FREQ -inf".toList = some [0x20_FF800000#40] := by decide +kernel
theorem test_asm_ticks : assemble ["TICKS 2".toList, "IS_HALF".toList]
    = some [0x05_00000000#40, 0x05_00000000#40, 0x07_00000000#40] := by decide +kernel
theorem test_asm_range : assembleLine "SET_INC 4294967296".toList = none := by decide +kernel
theorem test_listing : listing 0x03_FFFFFFF0#40 = "0x03_FFFFFFF0".toList := by decide +kernel
theorem test_identity : tc1.identity = "phase_accumulator-PA-CMD1-WF" := by decide +kernel

/-! ## Witnesses: for each statement with hypotheses, values that meet them together -/

/-- State 7 / 5 / 2 of TC1, the witness of most statements. -/
def w1 : State := st tc1 7 5 2
/-- State 7 / 5 / 0 of TC0. -/
def w0 : State := st tc0 7 5 0

theorem witness_SetIncStoresArgMod24 : ∃ t u, exec (.setInc 0) w1 = .next t ∧ exec .tick t = .next u :=
  ⟨_, _, rfl, rfl⟩
theorem witness_GetIncAnswersIncrement : ∃ t, exec (.setInc 0xFFFFFFFF) w1 = .next t := ⟨_, rfl⟩
theorem witness_GetCntAnswersPhase : w1.inc ≠ 0 := by decide
theorem witness_TickAdvancesPhase : ∃ t, exec .tick w1 = .next t ∧ t.cnt ≠ w1.cnt := ⟨_, rfl, by decide⟩
theorem witness_TicksAreAdditive :
    ∀ e ∈ [Input.tick, .command 0x05_ABCDEF01], e.isTick = true := by decide
theorem witness_PhaseFamilyNeverErrs : Instr.isHalf.opcode.toNat ≤ 7 ∧ (Instr.setInc 3).opcode.toNat ≤ 7 := by decide
theorem witness_TableReadsWaveEntry : (6 : Selector).toNat ≤ 6 ∧ (256 : Nat) ≤ 256 := by decide
theorem witness_RomHoldsTheTables : (1798 : Nat) < 1799 ∧ (1799 : Nat) ≤ 1799 := by decide
theorem witness_EffectiveSelectorRule :
    w1.cfg.variant.hasWaveSelect = true ∧ w0.cfg.variant.hasWaveSelect = false ∧
      ∃ t, exec (.setWave 6) w1 = .next t ∧ t.effectiveSel ≠ w1.effectiveSel := ⟨rfl, rfl, _, rfl, by decide⟩
theorem witness_GetValueInterpolates :
    (st tc1 0xFFFFFF 0 6).effectiveSel.toNat ≤ 6 ∧ (st tc1 0xFFFFFF 0 6).cnt.toNat / 2 ^ 16 = 255 := by decide
theorem witness_GetValueStaysInTable : (st tc1 0xFFFFFF 0 6).effectiveSel.toNat ≤ 6 := by decide
theorem witness_SetWaveSelectsTable :
    w1.cfg.variant.hasWaveSelect = true ∧ w0.cfg.variant.hasWaveSelect = false := ⟨rfl, rfl⟩
theorem witness_SampleShapeLaws_boundary :
    w1.effectiveSel.toNat ≤ 6 ∧ (0x7F0000 : Phase).toNat % 2 ^ 16 = 0 ∧
      w1.table w1.effectiveSel ((0x7F0000 : Phase).toNat / 2 ^ 16) = some 255 := by decide +kernel
theorem witness_SampleShapeLaws_falling :
    (0x7F0000 : Phase).toNat / 2 ^ 16 = (0x7F0001 : Phase).toNat / 2 ^ 16 ∧
      w1.table w1.effectiveSel ((0x7F0000 : Phase).toNat / 2 ^ 16) = some 255 ∧
      w1.table w1.effectiveSel ((0x7F0000 : Phase).toNat / 2 ^ 16 + 1) = some 0 ∧
      AnswersWith .getValue (w1.writeCnt 0x7F0000) 0xFF0000 ∧
      AnswersWith .getValue (w1.writeCnt 0x7F0001) 0xFEFF01 :=
  ⟨by decide, by decide +kernel, by decide +kernel,
    ⟨_, exec_getValue_of_table (low := 255) (high := 0) (by decide +kernel) (by decide +kernel),
      0xFF0000, by decide +kernel, by decide⟩,
    ⟨_, exec_getValue_of_table (low := 255) (high := 0) (by decide +kernel) (by decide +kernel),
      0xFEFF01, by decide +kernel, by decide⟩⟩
theorem witness_SampleShapeLaws_wrap :
    w1.table w1.effectiveSel 255 = some 0 ∧ w1.table w1.effectiveSel 0 = some 255 := by decide +kernel
theorem witness_SampleDependsOnPhaseAndTable :
    w1.cnt = (w1.writeInc 9).cnt ∧ w1.effectiveSel = (w1.writeInc 9).effectiveSel ∧
      (∀ a, w1.memRead a = (w1.writeInc 9).memRead a) ∧ w1 ≠ w1.writeInc 9 :=
  ⟨rfl, rfl, fun _ => rfl, fun h => absurd (congrArg State.inc h) (by decide)⟩
theorem witness_DecodeBinary32ByFields :
    ((0x7FC00000 : Word).toNat / 2 ^ 23 % 2 ^ 8 = 255 ∧ (0x7FC00000 : Word).toNat % 2 ^ 23 ≠ 0) ∧
    ((0xFF800000 : Word).toNat / 2 ^ 23 % 2 ^ 8 = 255 ∧ (0xFF800000 : Word).toNat % 2 ^ 23 = 0) ∧
    (0x80000001 : Word).toNat / 2 ^ 23 % 2 ^ 8 = 0 ∧
    (1 ≤ (0x7F7FFFFF : Word).toNat / 2 ^ 23 % 2 ^ 8 ∧ (0x7F7FFFFF : Word).toNat / 2 ^ 23 % 2 ^ 8 ≤ 254) := by decide
theorem witness_RoundBinary32IsNearest :
    (2 : ℚ) ^ (-126 : ℤ) ≤ 1 / 3 ∧ (1 / 3 : ℚ) ≤ (2 ^ 24 - 1) * 2 ^ 104 ∧
      f32Decode 0x3EAAAAAA = .real (11184810 / 33554432) := ⟨by norm_num, by norm_num, by decide +kernel⟩
theorem witness_LegalTick : LegalTick 1 ∧ LegalTick (2 ^ 32 - 1) := by
  unfold LegalTick
  decide
theorem witness_ConstantsRoundToNormals : LegalTick 1 ∧ minFreq 1 ∈ [minFreq 1, maxFreq 1, minPeriod 1, maxPeriod 1] :=
  ⟨witness_LegalTick.1, by simp⟩
theorem witness_RoundInvertsDecode :
    f32Sign 0x7F7FFFFF = false ∧ 1 ≤ f32Exponent 0x7F7FFFFF ∧ f32Exponent 0x7F7FFFFF ≤ 254 ∧
      ∃ q, f32Decode 0x7F7FFFFF = .real q := ⟨by decide, by decide, by decide, _, rfl⟩
theorem witness_ConverterConstants : LegalTick 1 := witness_LegalTick.1
theorem witness_ClampOnExtendedReals :
    (1 : ℚ) < 2 ∧ ((1 : ℚ) ≤ 1 ∧ (2 : ℚ) ≤ 2) ∧ (1 : ℚ) ≤ 3 / 2 ∧ (3 / 2 : ℚ) ≤ 2 := by norm_num
theorem witness_FrequencyToIncrement :
    LegalTick 1 ∧ f32Decode 0x7FC00000 = .nan ∧ f32Decode 0xFF800000 = .negInf ∧ f32Decode 0x7F800000 = .posInf ∧
      f32Decode 0x3F800000 = .real 1 :=
  ⟨witness_LegalTick.1, by decide +kernel, by decide +kernel, by decide +kernel, by decide +kernel⟩
theorem witness_PeriodToIncrement :
    LegalTick 3 ∧ f32Decode 0xFFFFFFFF = .nan ∧ f32Decode 0xFF800000 = .negInf ∧ f32Decode 0x7F800000 = .posInf ∧
      f32Decode 0x80000000 = .real 0 :=
  ⟨by unfold LegalTick; decide, by decide +kernel, by decide +kernel, by decide +kernel, by decide +kernel⟩
theorem witness_ConversionRangeAndOrder :
    LegalTick 1 ∧ (1 : ℚ) ≤ 2 ∧ (∃ fc, clamp (.real 1) (minFreq 1) (maxFreq 1) = some fc) ∧
      ∃ pc, clamp .posInf (minPeriod 1) (maxPeriod 1) = some pc :=
  ⟨witness_LegalTick.1, by norm_num, ⟨_, rfl⟩, _, rfl⟩
theorem witness_ConversionsAreInverse :
    LegalTick 1 ∧ f32Decode 0x40000000 = .real 2 ∧ minFreq 1 ≤ 2 ∧ 2 ≤ maxFreq 1 ∧
      f32Decode 0x3F000000 = .real (1 / 2) :=
  ⟨witness_LegalTick.1, by decide +kernel, by decide +kernel, by decide +kernel, by decide +kernel⟩
/-- For ConvFreqAnswersIncrement, ConvPeriodAnswersIncrement, SetFreqStoresIncrement,
SetPeriodStoresIncrement and the four statements of constants. -/
theorem witness_FreqConvPresentOrAbsent :
    w1.cfg.variant.hasFreqConv = true ∧ w0.cfg.variant.hasFreqConv = false := ⟨rfl, rfl⟩
theorem witness_ConvFreqAnswersIncrement :
    w1.cfg.variant.hasFreqConv = true ∧
      (∃ q, f32Decode 0x3727C5AC = .real q ∧ q ≤ minFreq w1.cfg.tickPeriodMs) ∧
      ∃ q, f32Decode 0x43FA0000 = .real q ∧ maxFreq w1.cfg.tickPeriodMs ≤ q :=
  ⟨rfl, ⟨_, rfl, by decide +kernel⟩, 500, by decide +kernel, by decide +kernel⟩
theorem witness_ConvPeriodAnswersIncrement :
    w1.cfg.variant.hasFreqConv = true ∧
      (∃ q, f32Decode 0x3A83126F = .real q ∧ q ≤ minPeriod w1.cfg.tickPeriodMs) ∧
      ∃ q, f32Decode 0x4683126F = .real q ∧ maxPeriod w1.cfg.tickPeriodMs ≤ q :=
  ⟨rfl, ⟨_, rfl, by decide +kernel⟩, _, rfl, by decide +kernel⟩
theorem witness_SetPeriodStoresIncrement :
    w1.cfg.variant.hasFreqConv = true ∧ f32Decode 0x00000000 = .real 0 := ⟨rfl, by decide +kernel⟩
theorem witness_DriftOverOnePeriod :
    w1.cfg.variant.hasFreqConv = true ∧ f32Decode 0x3F800000 = .real 1 ∧ minFreq w1.cfg.tickPeriodMs ≤ 1 ∧
      1 ≤ maxFreq w1.cfg.tickPeriodMs ∧ ((1000 : Nat) : ℚ) = 1000 / (1 * (w1.cfg.tickPeriodMs : ℚ)) :=
  ⟨rfl, by decide +kernel, by decide +kernel, by decide +kernel, by decide +kernel⟩
theorem witness_ConverterGuardsAliasing :
    w1.cfg.variant.hasFreqConv = true ∧ (∃ t, exec (.setFreq 0x7F800000) w1 = .next t) ∧
      (∃ t, exec (.setPeriod 0x7F800000) w1 = .next t) ∧ 2 ^ 24 - 1 < 2 ^ 24 :=
  ⟨rfl, ⟨_, rfl⟩, ⟨_, rfl⟩, by decide⟩
theorem witness_DecodeInvertsEncode : (Instr.setWave 0xFFFFFFFF).wf Variant.full = true := by decide
theorem witness_EncodeInvertsDecode :
    decode Variant.full 0x11_FFFFFFFF#40 = .ok (.setWave 0xFFFFFFFF) ∧ (Instr.setWave 0xFFFFFFFF).kind ≠ .n ∧
      decode base 0x04_FFFFFFFF#40 = .ok .getCnt ∧ Instr.getCnt.kind = .n := by decide
theorem witness_AssemblerEncodesLines :
    parseDigits 10 "12".toList = some 12 ∧ ("GET_CNT", AsmForm.n .getCnt) ∈ mnemonics :=
  ⟨by decide +kernel, by simp [mnemonics]⟩
theorem witness_StepRunsDecodedCommand :
    (w1.issueNext 0x05_00000001).inputs = .command 0x05_00000001 :: [] ∧
      decode (w1.issueNext 0x05_00000001).cfg.variant 0x05_00000001 = .ok .tick := ⟨rfl, rfl⟩
theorem witness_IllegalWordOnlyAnswersError :
    (w0.issueNext 0x11_00000002).inputs = .command 0x11_00000002 :: [] ∧
      decode (w0.issueNext 0x11_00000002).cfg.variant 0x11_00000002 = .error .waveSelectAbsent := ⟨rfl, rfl⟩
theorem witness_LegalCommandsNeverErr : Instr.getValue.wf w1.cfg.variant = true ∧ (st tc1 7 5 6).sel.toNat ≤ 6 := by
  decide
theorem witness_StepPerformsEvents :
    (w1.deliver [.tick]).inputs = .tick :: [] ∧ (w1.deliver [.powerOnReset]).inputs = .powerOnReset :: [] := ⟨rfl, rfl⟩
theorem witness_ResetIsSilent : ∀ e ∈ [Input.tick, .command 0x05_00000000], e.isTick = true := by decide
theorem witness_RegistersHaveTheseWriters :
    (∃ t, step (w1.deliver [.tick]) = .next t ∧ t.cnt ≠ w1.cnt) ∧
    (∃ t, step (w1.issueNext 0x01_00000009) = .next t ∧ t.inc ≠ w1.inc) ∧
    ∃ t, step (w1.issueNext 0x11_00000003) = .next t ∧ t.sel ≠ w1.sel :=
  ⟨⟨_, rfl, by decide⟩, ⟨_, rfl, by decide⟩, _, rfl, by decide⟩
theorem witness_StepsKeepConfiguration : ∃ t, step (w1.issueNext 0x11_00000003) = .next t := ⟨_, rfl⟩
theorem witness_ConfigurationsAreValid : ∃ c, (params 1 Variant.full).configure = .ok c ∧ c.toParams = params 1 Variant.full :=
  ⟨tc1, by simp [Params.configure, tc1_valid, tc1], rfl⟩
theorem witness_IdempotenceClasses :
    (Instr.getCnt.opcode ∈ [0x02, 0x04, 0x07, 0x10, 0x20, 0x21, 0x24, 0x25, 0x26, 0x27] ∧
      ∃ t u, exec .getCnt w1 = .next t ∧ exec .getCnt t = .next u) ∧
    ((Instr.setFreq 0).opcode ∈ [0x01, 0x03, 0x06, 0x11, 0x22, 0x23] ∧
      ∃ t u, exec (.setFreq 0) w1 = .next t ∧ exec (.setFreq 0) t = .next u) ∧
    (w1.inc ≠ 0 ∧ ∃ t u, exec .tick w1 = .next t ∧ exec .tick t = .next u) :=
  ⟨⟨by decide, _, _, rfl, rfl⟩, ⟨by decide, _, _, rfl, rfl⟩, by decide, _, _, rfl, rfl⟩
theorem witness_OneResponsePerCommand :
    (∃ t, step (w1.issueNext 0x04_00000000) = .next t) ∧
    ∃ t, step (w1.deliver [.tick]) = .next t ∧ ∀ w rest, (w1.deliver [.tick]).inputs ≠ .command w :: rest :=
  ⟨⟨_, rfl⟩, _, rfl, fun _ _ h => nomatch h⟩
theorem witness_SetupOrderIsFree :
    ((Instr.setFreq 0).opcode ∈ [0x01, 0x22, 0x23] ∧ (Instr.setWave 1).opcode ∈ [0x03, 0x06, 0x11]) ∧
    ∃ t u t' u', exec (.setFreq 0) w1 = .next t ∧ exec (.setWave 1) t = .next u ∧
      exec (.setWave 1) w1 = .next t' ∧ exec (.setFreq 0) t' = .next u' :=
  ⟨by decide, _, _, _, _, rfl, rfl, rfl, rfl⟩
theorem witness_StepKeepsInv : Inv w1 ∧ ∃ t, step (w1.issueNext 0x11_00000006) = .next t := ⟨by decide, _, rfl⟩
theorem witness_RunsNeverStop : Inv (w1.deliver [.tick, .command 0x10_00000000, .powerOnReset]) := by decide

end Sys2Proof.Tests
end

section
/-! PROOFS. The statements of 00_scope.md: which parameters make a configuration, and the two events as steps. -/

namespace Sys2Proof.Machine

/-! ### Configurations (00_scope.md R8, R11; 70_reset_and_hazards.md R184) -/

/-- The decidable check of a configuration, read as the rules state it. -/
theorem params_valid_iff (p : Params) :
    p.valid = true ↔
      LegalTick p.tickPeriodMs ∧ p.waveTable.length = 7 ∧
        ∀ t ∈ p.waveTable, t.length = 257 ∧ t[256]? = t[0]? := by
  simp only [Params.valid, Params.tickPeriodOk, Params.tableCountOk, Params.tableLengthsOk, Params.tablesClosed,
    LegalTick, Bool.and_eq_true, decide_eq_true_iff, List.all_eq_true, beq_iff_eq, forall_and, and_assoc]

theorem configure_of_valid {p : Params} (h : p.valid = true) :
    p.configure = .ok { toParams := p, ok := h } := dif_pos h

/-- `configure` takes exactly the valid parameters, and changes none of them. -/
theorem configure_takes_iff_valid (p : Params) :
    (∃ c, p.configure = .ok c ∧ c.toParams = p) ↔ p.valid = true := by
  constructor
  · rintro ⟨c, -, rfl⟩
    exact c.ok
  · exact fun h => ⟨_, configure_of_valid h, rfl⟩

/-- In each of the seven tables entries 256 and 0 exist and are the same byte. -/
theorem waveEntry_first_eq_last (c : Config) (s : Nat) (hs : s ≤ 6) :
    ∃ b, waveEntry c s 256 = some b ∧ waveEntry c s 0 = some b := by
  obtain ⟨b, hb⟩ := waveEntry_exists c s 0 hs (by decide)
  exact ⟨b, (waveEntry_closed c s).trans hb, hb⟩

/-- Settles O52: a configuration carries the proof of its validity, and `configure` takes parameters by
that same check. -/
theorem configurationsAreValid : Obligations.ConfigurationsAreValid := by
  refine ⟨fun c => ?_, fun p => (configure_takes_iff_valid p).trans (params_valid_iff p)⟩
  obtain ⟨htick, hcount, -⟩ := config_valid c
  exact ⟨htick, hcount, waveEntry_first_eq_last c⟩

/-! ### Events (00_scope.md R6; 40_phase_accumulator.md R84; 70_reset_and_hazards.md R180, R191) -/

theorem step_powerOnReset {s : State} {rest : List Input} (h : s.inputs = .powerOnReset :: rest) :
    step s = .next { s with inputs := rest }.powerOnReset := step_input h

theorem advancePhase_cnt_toNat (s : State) :
    s.advancePhase.cnt.toNat = (s.cnt.toNat + s.inc.toNat) % 2 ^ 24 := by
  rw [advancePhase_cnt, BitVec.toNat_add]

/-- Settles O47: the event is taken from the inputs, and its update touches only the registers named. -/
theorem stepPerformsEvents : Obligations.StepPerformsEvents := by
  refine fun s rest => ⟨fun htick => ?tick, fun hreset => ?reset⟩
  case tick =>
    exact ⟨_, step_tick htick, advancePhase_cnt_toNat _, rfl, rfl, rfl, rfl, rfl, rfl⟩
  case reset =>
    exact ⟨_, step_powerOnReset hreset, rfl, rfl, rfl, rfl, rfl, rfl, rfl⟩

end Sys2Proof.Machine
end

section
/-! PROOFS. The statements of 10_state.md: the registers after reset, who writes each of them, what no step
writes, and the invariant that every step keeps. -/

namespace Sys2Proof.Machine

/-! ### Reset (10_state.md R31) -/

/-- Settles O48: the reset registers do not depend on the configuration. -/
theorem resetClearsRegisters : Obligations.ResetClearsRegisters := by
  refine ⟨fun c => ⟨?cnt, ?inc, ?sel, powerOn_cfg c⟩, Config.built, rfl⟩
  case cnt => rw [powerOn_cnt]; rfl
  case inc => rw [powerOn_inc]; rfl
  case sel => rw [powerOn_sel]; rfl

theorem inv_powerOn (c : Config) : Inv (State.powerOn c) :=
  ⟨by rw [powerOn_sel]; decide, fun _ => powerOn_sel c, by rw [powerOn_issued, powerOn_responses]; rfl⟩

/-- Settles O58: `State.reset` is one of the power-on states. -/
theorem invAtReset : Obligations.InvAtReset := ⟨inv_powerOn Config.built, inv_powerOn⟩

/-! ### What no step writes (10_state.md R29; 20_memory.md R54) -/

/-- A command leaves the configuration and the words on record, and returns one response. -/
theorem exec_frame {i : Instr} {s t : State} (h : exec i s = .next t) :
    t.cfg = s.cfg ∧ t.issued = s.issued ∧ ∃ r, t.responses = s.responses ++ [r] := by
  rcases exec_cases h with ⟨-, rfl⟩ | ⟨-, ⟨d, rfl, -⟩ | ⟨v, rfl, -⟩ | ⟨v, rfl, -⟩ | ⟨arg, rfl, -⟩⟩
  all_goals exact ⟨rfl, rfl, _, rfl⟩

theorem step_cfg {s t : State} (h : step s = .next t) : t.cfg = s.cfg := by
  rcases step_cases h with ⟨-, rfl⟩ | ⟨e, rest, -, ⟨-, rfl⟩ | ⟨-, rfl⟩ | ⟨w, -, ⟨i, -, hexec⟩ | ⟨r, -, rfl⟩⟩⟩
  · rfl
  · exact advancePhase_cfg _
  · exact powerOnReset_cfg _
  · exact (exec_frame hexec).1
  · rfl

/-- Settles O51: the ROM is a view of the configuration, which no step writes. -/
theorem stepsKeepConfiguration : Obligations.StepsKeepConfiguration :=
  fun _ _ h => ⟨step_cfg h, memRead_of_cfg_eq (step_cfg h)⟩

/-! ### The writers of each register (10_state.md R21 to R23) -/

theorem opcode_of_exec_changes_cnt {i : Instr} {s t : State} (h : exec i s = .next t) (hne : t.cnt ≠ s.cnt) :
    i.opcode = 0x03 ∨ i.opcode = 0x05 ∨ i.opcode = 0x06 := by
  rcases exec_cases h with ⟨-, rfl⟩ | ⟨-, ⟨d, rfl, -⟩ | ⟨v, rfl, -⟩ | ⟨v, rfl, hop⟩ | ⟨arg, rfl, -⟩⟩
  case inr.inr.inr.inl => simpa using hop
  all_goals exact absurd rfl hne

theorem opcode_of_exec_changes_inc {i : Instr} {s t : State} (h : exec i s = .next t) (hne : t.inc ≠ s.inc) :
    i.opcode = 0x01 ∨ i.opcode = 0x22 ∨ i.opcode = 0x23 := by
  rcases exec_cases h with ⟨-, rfl⟩ | ⟨-, ⟨d, rfl, -⟩ | ⟨v, rfl, hop⟩ | ⟨v, rfl, -⟩ | ⟨arg, rfl, -⟩⟩
  case inr.inr.inl => simpa using hop
  all_goals exact absurd rfl hne

/-- SEL changes only by SET_WAVE in a block that has it, and then to the selector ARG names. -/
theorem setWave_of_exec_changes_sel {i : Instr} {s t : State} (h : exec i s = .next t) (hne : t.sel ≠ s.sel) :
    ∃ arg, i = .setWave arg ∧ s.cfg.variant.hasWaveSelect = true ∧ t.sel = operandS arg := by
  rcases exec_cases h with ⟨-, rfl⟩ | ⟨hwf, ⟨d, rfl, -⟩ | ⟨v, rfl, -⟩ | ⟨v, rfl, -⟩ | ⟨arg, rfl, rfl⟩⟩
  case inr.inr.inr.inr => exact ⟨arg, rfl, hwf, rfl⟩
  all_goals exact absurd rfl hne

theorem opField_of_decode {v : Variant} {w : CmdWord} {i : Instr} (h : decode v w = .ok i) :
    opField w = i.opcode :=
  (commandOf_eq_some _ _ _ ((decode_eq_ok_iff v w i).mp h).1).1.symm

/-- A word of SET_FREQ or SET_PERIOD is a command only in a block with the converter. -/
theorem hasFreqConv_of_decode {v : Variant} {w : CmdWord} {i : Instr} (h : decode v w = .ok i)
    (hop : opField w = 0x22 ∨ opField w = 0x23) : v.hasFreqConv = true := by
  obtain ⟨hrow, hwf⟩ := (decode_eq_ok_iff v w i).mp h
  rcases hop with hop | hop <;> rw [hop] at hrow <;> cases hrow <;> exact hwf

/-- Settles O50: by what the step performs; a command word writes what its opcode's command writes. -/
theorem registersHaveTheseWriters : Obligations.RegistersHaveTheseWriters := by
  intro s t h
  rcases step_cases h with ⟨-, rfl⟩ |
    ⟨e, rest, hin, ⟨rfl, rfl⟩ | ⟨rfl, rfl⟩ | ⟨w, rfl, ⟨i, hdec, hexec⟩ | ⟨r, -, rfl⟩⟩⟩
  case inl => exact ⟨absurd rfl, absurd rfl, absurd rfl⟩
  case inr.inl => exact ⟨fun _ => ⟨_, rest, hin, .inl rfl⟩, absurd rfl, absurd rfl⟩
  case inr.inr.inl =>
    exact ⟨fun _ => ⟨_, rest, hin, .inr (.inl rfl)⟩, fun _ => ⟨_, rest, hin, .inl rfl⟩,
      fun _ => ⟨_, rest, hin, .inl rfl⟩⟩
  case inr.inr.inr.inl =>
    have hop := opField_of_decode hdec
    refine ⟨fun hcnt => ?cnt, fun hinc => ?inc, fun hsel => ?sel⟩
    case cnt =>
      have hw := opcode_of_exec_changes_cnt hexec hcnt
      rw [← hop] at hw
      exact ⟨_, rest, hin, .inr (.inr ⟨w, rfl, hw⟩)⟩
    case inc =>
      have hw := opcode_of_exec_changes_inc hexec hinc
      rw [← hop] at hw
      exact ⟨_, rest, hin, .inr ⟨w, rfl, hw.imp_right fun hf => ⟨hasFreqConv_of_decode hdec hf, hf⟩⟩⟩
    case sel =>
      obtain ⟨arg, rfl, hwave, -⟩ := setWave_of_exec_changes_sel hexec hsel
      exact ⟨_, rest, hin, .inr ⟨w, rfl, hwave, hop⟩⟩
  case inr.inr.inr.inr => exact ⟨absurd rfl, absurd rfl, absurd rfl⟩

/-! ### The invariant (10_state.md R23; 30_encoding.md R61) -/

/-- The invariant's part about SEL, which holds inside a step too, where a command has its word on record
and no response yet. -/
def SelectorOk (s : State) : Prop :=
  s.sel.toNat ≤ 6 ∧ (s.cfg.variant.hasWaveSelect = false → s.sel = 0)

theorem inv_iff_selectorOk (s : State) : Inv s ↔ SelectorOk s ∧ s.issued.length = s.responses.length :=
  and_assoc.symm

theorem operandS_toNat_le (arg : Word) : (operandS arg).toNat ≤ 6 := by
  rw [operandS_toNat]
  split <;> omega

theorem exec_keeps_selectorOk {i : Instr} {s t : State} (h : exec i s = .next t) (hs : SelectorOk s) :
    SelectorOk t := by
  have hcfg : t.cfg = s.cfg := (exec_frame h).1
  by_cases hsel : t.sel = s.sel
  · rwa [SelectorOk, hsel, hcfg]
  · obtain ⟨arg, -, hwave, hnew⟩ := setWave_of_exec_changes_sel h hsel
    refine ⟨hnew ▸ operandS_toNat_le arg, fun hbase => ?_⟩
    rw [hcfg, hwave] at hbase
    contradiction

/-- One more word on record and one more response keep the invariant. -/
theorem inv_of_one_response {s t : State} {w : CmdWord} {r : Response} (hs : Inv s) (hsel : SelectorOk t)
    (hissued : t.issued = s.issued ++ [w]) (hresponses : t.responses = s.responses ++ [r]) : Inv t := by
  obtain ⟨-, hlen⟩ := (inv_iff_selectorOk s).mp hs
  refine (inv_iff_selectorOk t).mpr ⟨hsel, ?_⟩
  rw [hissued, hresponses, List.length_append, List.length_append, hlen]
  rfl

/-- Settles O59: events leave the record alone, and a command, legal or not, returns one response; SEL is
written only by reset and by SET_WAVE, whose operand is never 7. -/
theorem stepKeepsInv : Obligations.StepKeepsInv := by
  intro s t hs h
  obtain ⟨hsel, hlen⟩ := (inv_iff_selectorOk s).mp hs
  rcases step_cases h with ⟨-, rfl⟩ |
    ⟨e, rest, -, ⟨-, rfl⟩ | ⟨-, rfl⟩ | ⟨w, -, ⟨i, -, hexec⟩ | ⟨r, -, rfl⟩⟩⟩
  case inl => exact hs
  case inr.inl => exact hs
  case inr.inr.inl => exact ⟨by rw [powerOnReset_sel]; decide, fun _ => powerOnReset_sel _, hlen⟩
  case inr.inr.inr.inl =>
    obtain ⟨-, hissued, r, hresponses⟩ := exec_frame hexec
    exact inv_of_one_response hs (exec_keeps_selectorOk hexec hsel) hissued hresponses
  case inr.inr.inr.inr => exact inv_of_one_response hs hsel rfl rfl

end Sys2Proof.Machine
end

section
/-! PROOFS. The statements of 20_memory.md: what the ROM holds, the order in which inputs are performed, which
commands may be repeated, and that no run stops. -/

namespace Sys2Proof.Machine

/-! ### The wavetable ROM (20_memory.md R40, R41) -/

/-- Settles O11: address `a` is entry `a % 257` of row `a / 257` of the ROM's layout. -/
theorem romHoldsTheTables : Obligations.RomHoldsTheTables := by
  refine fun c a => ⟨fun ha => ?inside, readByte_configRom_outside c a⟩
  have hi : a % 257 < 257 := Nat.mod_lt a (by decide)
  have hread : readByte a (configRom c) = waveEntry c (a / 257) (a % 257) := by
    simpa only [Nat.div_add_mod] using readByte_configRom c (a / 257) (a % 257) hi
  obtain ⟨b, hb⟩ := waveEntry_exists c (a / 257) (a % 257) (by omega) (by omega)
  exact ⟨b, hread.trans hb, hb⟩

/-! ### The order of inputs (20_memory.md R50, R51; 60_exceptions.md R164) -/

theorem step_command {s : State} {w : CmdWord} {rest : List Input} (h : s.inputs = .command w :: rest) :
    step s = performCommand w { s with inputs := rest } := step_input h

/-- Settles O44: taking the word and putting it on record change none of what the decoder reads. -/
theorem stepRunsDecodedCommand : Obligations.StepRunsDecodedCommand := by
  intro s w rest i hin hdec
  rw [step_command hin, performCommand_ok (s := { s with inputs := rest }) hdec]
  rfl

theorem core_run_one (M : Host.Core) (s : M.State) : M.run 1 s = M.step s := by
  simp only [Host.Core.run]
  cases M.step s <;> rfl

theorem runFor_one (s : State) : runFor 1 s = step s := core_run_one Sys2Proof.core s

/-- Settles O55: the state between the two is the one the tick leaves, with the word still to come. -/
theorem sameCycleTickGoesFirst : Obligations.SameCycleTickGoesFirst := by
  refine fun s w => ⟨s.advancePhase, advancePhase_cnt_toNat s, ⟨rfl, rfl, rfl, fun _ => rfl⟩, rfl, rfl, rfl, ?_⟩
  calc runFor 2 (s.deliver (sameCycle w))
      = runFor 1 (s.advancePhase.deliver [.command w]) := runFor_succ (step_deliver_tick s [.command w])
    _ = step (s.advancePhase.deliver [.command w]) := runFor_one _
    _ = performCommand w s.advancePhase := step_command rfl

/-! ### Commands run twice (20_memory.md R47) -/

/-- Run a second time at once, the command only repeats its response. -/
def OnlyRepeatsAnswer (i : Instr) : Prop :=
  ∀ s t : State, exec i s = .next t →
    ∃ e d, t.responses = s.responses ++ [{ err := e, data := d }] ∧ exec i t = .next (t.respond e d)

/-- A command behind an option: no command changes the options, and without the option the answer is
IllegalCommand both times. -/
theorem onlyRepeatsAnswer_of_option (p : Variant → Bool) {i : Instr} {out : State → State}
    (hexec : ∀ s, exec i s = .next (if p s.cfg.variant then out s else s.respond true 0))
    (hout : ∀ s, (out s).cfg = s.cfg ∧
      ∃ e d, (out s).responses = s.responses ++ [{ err := e, data := d }] ∧ out (out s) = (out s).respond e d) :
    OnlyRepeatsAnswer i := by
  intro s t h
  by_cases hp : p s.cfg.variant = true
  · obtain ⟨hcfg, e, d, hresp, htwice⟩ := hout s
    rw [hexec, if_pos hp] at h
    cases h
    exact ⟨e, d, hresp, by rw [hexec, hcfg, if_pos hp, htwice]⟩
  · rw [hexec, if_neg hp] at h
    cases h
    exact ⟨true, 0, rfl, by rw [hexec, respond_cfg, if_neg hp]⟩

/-- GET_VALUE answers only where both entries exist. -/
theorem table_entries_of_exec_getValue {s t : State} (h : exec .getValue s = .next t) :
    ∃ low high, s.table s.effectiveSel (phaseIndex s.cnt) = some low ∧
      s.table s.effectiveSel (phaseIndex s.cnt + 1) = some high := by
  change execGetValue s = _ at h
  simp only [execGetValue] at h
  split at h
  case h_1 low high hlow hhigh => exact ⟨low, high, hlow, hhigh⟩
  all_goals cases h

theorem onlyRepeatsAnswer_getValue : OnlyRepeatsAnswer .getValue := by
  intro s t h
  obtain ⟨low, high, hlow, hhigh⟩ := table_entries_of_exec_getValue h
  rw [exec_getValue_of_table hlow hhigh] at h
  cases h
  exact ⟨_, _, rfl, exec_getValue_of_table (s := s.respond _ _) hlow hhigh⟩

/-- TICK is the one command whose repetition has an effect: every other writes a value that the register it
writes has no part in, or writes nothing. -/
theorem onlyRepeatsAnswer_of_ne_tick {i : Instr} (hi : i ≠ .tick) : OnlyRepeatsAnswer i := by
  cases i with
  | tick => exact absurd rfl hi
  | getValue => exact onlyRepeatsAnswer_getValue
  | setWave arg =>
    exact onlyRepeatsAnswer_of_option Variant.hasWaveSelect (exec_setWave arg) fun _ => ⟨rfl, _, _, rfl, rfl⟩
  | convFreq arg =>
    exact onlyRepeatsAnswer_of_option Variant.hasFreqConv (exec_convFreq arg) fun _ => ⟨rfl, _, _, rfl, rfl⟩
  | convPeriod arg =>
    exact onlyRepeatsAnswer_of_option Variant.hasFreqConv (exec_convPeriod arg) fun _ => ⟨rfl, _, _, rfl, rfl⟩
  | setFreq arg =>
    exact onlyRepeatsAnswer_of_option Variant.hasFreqConv (exec_setFreq arg) fun _ => ⟨rfl, _, _, rfl, rfl⟩
  | setPeriod arg =>
    exact onlyRepeatsAnswer_of_option Variant.hasFreqConv (exec_setPeriod arg) fun _ => ⟨rfl, _, _, rfl, rfl⟩
  | getMinFreq =>
    exact onlyRepeatsAnswer_of_option Variant.hasFreqConv exec_getMinFreq fun _ => ⟨rfl, _, _, rfl, rfl⟩
  | getMaxFreq =>
    exact onlyRepeatsAnswer_of_option Variant.hasFreqConv exec_getMaxFreq fun _ => ⟨rfl, _, _, rfl, rfl⟩
  | getMinPeriod =>
    exact onlyRepeatsAnswer_of_option Variant.hasFreqConv exec_getMinPeriod fun _ => ⟨rfl, _, _, rfl, rfl⟩
  | getMaxPeriod =>
    exact onlyRepeatsAnswer_of_option Variant.hasFreqConv exec_getMaxPeriod fun _ => ⟨rfl, _, _, rfl, rfl⟩
  | setInc _ | getInc | setCnt _ | getCnt | resetPhase | isHalf =>
    intro s t h
    cases h
    exact ⟨_, _, rfl, rfl⟩

/-- The opcodes R47 calls read-only are none of those that write INC or CNT. -/
theorem readOnly_opcode_writes_neither :
    ∀ op ∈ ([0x02, 0x04, 0x07, 0x10, 0x20, 0x21, 0x24, 0x25, 0x26, 0x27] : List Opcode),
      op ∉ ([0x01, 0x22, 0x23] : List Opcode) ∧ op ∉ ([0x03, 0x05, 0x06] : List Opcode) := by
  decide

theorem exec_readOnly_sameRegisters {i : Instr} {s t : State}
    (hop : i.opcode ∈ [0x02, 0x04, 0x07, 0x10, 0x20, 0x21, 0x24, 0x25, 0x26, 0x27])
    (h : exec i s = .next t) : SameRegisters s t := by
  obtain ⟨hinc, hcnt⟩ := readOnly_opcode_writes_neither i.opcode hop
  rcases exec_cases h with ⟨-, rfl⟩ | ⟨-, ⟨d, rfl, -⟩ | ⟨v, -, hw⟩ | ⟨v, -, hw⟩ | ⟨arg, -, rfl⟩⟩
  case inl => exact ⟨rfl, rfl, rfl⟩
  case inr.inl => exact ⟨rfl, rfl, rfl⟩
  case inr.inr.inl => exact absurd hw hinc
  case inr.inr.inr.inl => exact absurd hw hcnt
  case inr.inr.inr.inr => exact absurd hop (by simp [Instr.opcode])

/-- Two ticks leave a phase that differs from what one leaves, unless INC is 0. -/
theorem advancePhase_twice_cnt_ne {s : State} (hinc : s.inc ≠ 0) :
    s.advancePhase.advancePhase.cnt ≠ s.advancePhase.cnt := by
  simpa using hinc

/-- Settles O53: of all commands only TICK does more than answer when it is run again. -/
theorem idempotenceClasses : Obligations.IdempotenceClasses := by
  refine ⟨fun i s t u hop ht hu => ?readOnly, fun i s t u hop ht hu => ?writing, fun s t u hinc ht hu => ?tick⟩
  case readOnly =>
    have hne : i ≠ .tick := by rintro rfl; exact absurd hop (by decide)
    obtain ⟨e, d, hresp, hagain⟩ := onlyRepeatsAnswer_of_ne_tick hne s t ht
    cases hagain.symm.trans hu
    exact ⟨exec_readOnly_sameRegisters hop ht, e, d.toNat, ⟨d, hresp, rfl⟩, ⟨d, rfl, rfl⟩⟩
  case writing =>
    have hne : i ≠ .tick := by rintro rfl; exact absurd hop (by decide)
    obtain ⟨e, d, -, hagain⟩ := onlyRepeatsAnswer_of_ne_tick hne s t ht
    cases hagain.symm.trans hu
    exact ⟨rfl, rfl, rfl⟩
  case tick =>
    cases ht
    cases hu
    exact advancePhase_twice_cnt_ne hinc

/-! ### Runs (20_memory.md R53; 60_exceptions.md R160) -/

theorem performCommand_completes (w : CmdWord) {s : State} (hsel : s.sel.toNat ≤ 6) :
    ∃ t, performCommand w s = .next t := by
  cases hdec : decode s.cfg.variant w with
  | ok i =>
    rw [performCommand_ok hdec]
    exact exec_completes fun _ => effectiveSel_le_of_sel_le (s := s.record w) hsel
  | error r => exact ⟨_, performCommand_error hdec⟩

/-- A step stops at no input: the one fault there is needs SEL = 7. -/
theorem step_completes {s : State} (hsel : s.sel.toNat ≤ 6) : ∃ t, step s = .next t := by
  cases hin : s.inputs with
  | nil => exact ⟨s, step_idle hin⟩
  | cons e rest =>
    cases e with
    | tick => exact ⟨_, step_tick hin⟩
    | powerOnReset => exact ⟨_, step_powerOnReset hin⟩
    | command w =>
      rw [step_command hin]
      exact performCommand_completes w (s := { s with inputs := rest }) hsel

theorem exec_inputs {i : Instr} {s t : State} (h : exec i s = .next t) : t.inputs = s.inputs := by
  rcases exec_cases h with ⟨-, rfl⟩ | ⟨-, ⟨d, rfl, -⟩ | ⟨v, rfl, -⟩ | ⟨v, rfl, -⟩ | ⟨arg, rfl, -⟩⟩
  all_goals rfl

/-- A step takes the next input, if there is one, and no other. -/
theorem step_inputs {s t : State} (h : step s = .next t) : t.inputs = s.inputs.drop 1 := by
  rcases step_cases h with ⟨hin, rfl⟩ |
    ⟨e, rest, hin, ⟨-, rfl⟩ | ⟨-, rfl⟩ | ⟨w, -, ⟨i, -, hexec⟩ | ⟨r, -, rfl⟩⟩⟩
  all_goals rw [hin]
  case inr.inr.inr.inl => exact exec_inputs hexec
  all_goals rfl

/-- Settles O60, by induction on the number of steps: each completes where SEL is legal, keeps the invariant
and takes one input. -/
theorem runsNeverStop : Obligations.RunsNeverStop := by
  intro k
  induction k with
  | zero => exact fun s hs => ⟨s, runFor_zero s, hs, rfl⟩
  | succ k ih =>
    intro s hs
    obtain ⟨s', hstep⟩ := step_completes hs.1
    obtain ⟨t, hrun, ht, hin⟩ := ih s' (stepKeepsInv s s' hs hstep)
    refine ⟨t, (runFor_succ hstep).trans hrun, ht, ?_⟩
    rw [hin, step_inputs hstep, List.drop_drop, Nat.add_comm]

end Sys2Proof.Machine
end

section
/-! PROOFS. The statements of 30_encoding.md: the decoder and the encoder are inverse, which words are illegal, the
assembler, and the one response of a command. -/

namespace Sys2Proof.Machine

/-! ### Decoding and encoding (30_encoding.md R60, R66, R68) -/

/-- Every command stands in the opcode map, in the row of its own OP and ARG. -/
theorem commandOf_opcode_argument : ∀ i : Instr, commandOf i.opcode i.argument = some i
  | .setInc arg => Laws.OpcodeRow.setInc arg
  | .getInc => Laws.OpcodeRow.getInc
  | .setCnt arg => Laws.OpcodeRow.setCnt arg
  | .getCnt => Laws.OpcodeRow.getCnt
  | .tick => Laws.OpcodeRow.tick
  | .resetPhase => Laws.OpcodeRow.resetPhase
  | .isHalf => Laws.OpcodeRow.isHalf
  | .getValue => Laws.OpcodeRow.getValue
  | .setWave arg => Laws.OpcodeRow.setWave arg
  | .convFreq arg => Laws.OpcodeRow.convFreq arg
  | .convPeriod arg => Laws.OpcodeRow.convPeriod arg
  | .setFreq arg => Laws.OpcodeRow.setFreq arg
  | .setPeriod arg => Laws.OpcodeRow.setPeriod arg
  | .getMinFreq => Laws.OpcodeRow.getMinFreq
  | .getMaxFreq => Laws.OpcodeRow.getMaxFreq
  | .getMinPeriod => Laws.OpcodeRow.getMinPeriod
  | .getMaxPeriod => Laws.OpcodeRow.getMaxPeriod

/-- What a word of given fields decodes to. -/
theorem decode_mkWord_eq_ok_iff (v : Variant) (op : Opcode) (arg : Word) (i : Instr) :
    decode v (mkWord op arg) = .ok i ↔ commandOf op arg = some i ∧ i.wf v = true := by
  rw [decode_eq_ok_iff, opField_mkWord, argField_mkWord]

/-- Settles O39: the fields of the encoding are the command's OP and ARG, which name its row of the map. -/
theorem decodeInvertsEncode : Obligations.DecodeInvertsEncode :=
  fun v i hwf => (decode_mkWord_eq_ok_iff v i.opcode i.argument i).mpr ⟨commandOf_opcode_argument i, hwf⟩

/-- Settles O40: the fields that name the command's row are its opcode and, but for kind N, its argument. -/
theorem encodeInvertsDecode : Obligations.EncodeInvertsDecode := by
  intro v w i h
  obtain ⟨hrow, hwf⟩ := (decode_eq_ok_iff v w i).mp h
  obtain ⟨hop, harg, hignored⟩ := commandOf_eq_some _ _ _ hrow
  refine ⟨hwf, hop, fun hkind => ?operand, fun hkind arg => ?noOperand⟩
  case operand => rw [encode, hop, harg hkind, mkWord_fields]
  case noOperand => exact (decode_mkWord_eq_ok_iff v _ arg i).mpr ⟨hignored hkind arg, hwf⟩

/-- Settles O42: the words are evaluated. -/
theorem sampleWordsDecode : Obligations.SampleWordsDecode := ⟨rfl, rfl, rfl, rfl, rfl⟩

/-! ### Illegal words (30_encoding.md R67) -/

/-- The gaps of the opcode map. -/
theorem commandOf_eq_none_iff (op : Opcode) (arg : Word) :
    commandOf op arg = none ↔
      op.toNat = 0 ∨ (0x08 ≤ op.toNat ∧ op.toNat ≤ 0x0F) ∨ (0x12 ≤ op.toNat ∧ op.toNat ≤ 0x1F) ∨
        0x28 ≤ op.toNat := by
  unfold commandOf
  split
  case h_18 =>
    simp only [imp_false, true_iff] at *
    omega
  all_goals
    simp only [reduceCtorEq, false_iff]
    omega

/-- The rows of the opcode map that a variant is without. -/
theorem commandOf_not_wf_iff (v : Variant) (op : Opcode) (arg : Word) :
    (∃ i, commandOf op arg = some i ∧ i.wf v = false) ↔
      (op.toNat = 0x11 ∧ v.hasWaveSelect = false) ∨
        (0x20 ≤ op.toNat ∧ op.toNat ≤ 0x27 ∧ v.hasFreqConv = false) := by
  unfold commandOf
  split
  case h_18 =>
    simp only [imp_false, reduceCtorEq, false_and, exists_false, false_iff] at *
    omega
  all_goals
    rename_i hop
    simp [Instr.wf, Instr.needs, Needs.met, hop]

/-- A word is illegal for one of two reasons: its OP is in no row, or the variant is without the row's command. -/
theorem decode_mkWord_error_iff (v : Variant) (op : Opcode) (arg : Word) :
    (∃ r, decode v (mkWord op arg) = .error r) ↔
      commandOf op arg = none ∨ ∃ i, commandOf op arg = some i ∧ i.wf v = false := by
  constructor
  · rintro ⟨r, hr⟩
    cases hrow : commandOf op arg with
    | none => exact .inl rfl
    | some i =>
      refine .inr ⟨i, rfl, Bool.eq_false_iff.mpr fun hwf => ?_⟩
      cases hr.symm.trans ((decode_mkWord_eq_ok_iff v op arg i).mpr ⟨hrow, hwf⟩)
  · intro hno
    cases hdec : decode v (mkWord op arg) with
    | error r => exact ⟨r, rfl⟩
    | ok i =>
      obtain ⟨hrow, hwf⟩ := (decode_mkWord_eq_ok_iff v op arg i).mp hdec
      simp [hrow, hwf] at hno

/-- Settles O41: an OP in a gap of the map names no command, and any other OP a command that needs the option
of its group of rows. -/
theorem illegalWordsAreThese : Obligations.IllegalWordsAreThese := by
  intro v op arg
  rw [decode_mkWord_error_iff, commandOf_eq_none_iff, commandOf_not_wf_iff]
  simp only [or_assoc]

/-! ### The assembler (30_encoding.md R69) -/

/-- A hexadecimal digit is read back. -/
theorem digitValue_hexChar : ∀ d < 16, digitValue 16 (hexChar d) = some d := by decide

theorem digitsFrom_append (base acc : Nat) (cs ds : List Char) :
    digitsFrom base acc (cs ++ ds) = (digitsFrom base acc cs).bind fun a => digitsFrom base a ds := by
  induction cs generalizing acc with
  | nil => rfl
  | cons c cs ih => simp only [List.cons_append, digitsFrom, Option.bind_assoc, ih]

/-- Reading `k` digits of `n` after `acc`: `acc` moves up by `k` places. -/
theorem digitsFrom_hexDigits (acc n k : Nat) :
    digitsFrom 16 acc (hexDigits n k) = some (acc * 16 ^ k + n % 16 ^ k) := by
  induction k generalizing n with
  | zero => simp [hexDigits, digitsFrom, Nat.mod_one]
  | succ k ih =>
    have hdigit : digitValue 16 (hexChar (n % 16)) = some (n % 16) := digitValue_hexChar _ (Nat.mod_lt n (by decide))
    simp only [hexDigits, digitsFrom_append, ih, digitsFrom, hdigit, Option.bind_some, Option.some.injEq]
    rw [Nat.pow_succ', Nat.mod_mul]
    ring

theorem hexDigits_ne_nil (n k : Nat) : hexDigits n (k + 1) ≠ [] := by simp [hexDigits]

/-- A word printed as `0x` and eight digits is read back, whatever its value. -/
theorem parseU_hexDigits (arg : Word) : parseU (['0', 'x'] ++ hexDigits arg.toNat 8) = some arg := by
  have hlt : arg.toNat < 16 ^ 8 := arg.isLt
  have hhex : parseHex (['0', 'x'] ++ hexDigits arg.toNat 8) = some arg.toNat := by
    change parseDigits 16 (hexDigits arg.toNat 8) = some arg.toNat
    rw [parseDigits, if_neg (hexDigits_ne_nil _ 7), digitsFrom_hexDigits, Nat.zero_mul, Nat.zero_add,
      Nat.mod_eq_of_lt hlt]
  rw [parseU, hhex, Option.some_or, Option.bind_some, asWord, if_pos arg.isLt, BitVec.ofNat_toNat, BitVec.setWidth_eq]

/-- In a table whose names are all different, a row is found by its name. -/
theorem find?_name_of_mem {α : Type} {table : List (String × α)} (hnames : (table.map Prod.fst).Nodup)
    {row : String × α} (hrow : row ∈ table) : table.find? (fun r => r.1.toList == row.1.toList) = some row := by
  induction table with
  | nil => cases hrow
  | cons r rest ih =>
    obtain ⟨hfresh, hrest⟩ := List.nodup_cons.mp hnames
    rcases List.mem_cons.mp hrow with rfl | hmem
    · exact List.find?_cons_of_pos (by simp)
    · have hne : r.1 ≠ row.1 := fun heq => hfresh (heq ▸ List.mem_map_of_mem hmem)
      rw [List.find?_cons_of_neg (by simpa [String.toList_inj] using hne)]
      exact ih hrest hmem

theorem mnemonics_names_nodup : (mnemonics.map Prod.fst).Nodup := by decide

/-- The form of each mnemonic is the one in its row. -/
theorem formOf_of_mem {row : String × AsmForm} (hrow : row ∈ mnemonics) : formOf row.1.toList = some row.2 := by
  rw [formOf, find?_name_of_mem mnemonics_names_nodup hrow, Option.map_some]

theorem assembleTokens_n {m : List Char} {i : Instr} (h : formOf m = some (.n i)) :
    assembleTokens [m] = some [encode i] := by
  simp only [assembleTokens, h]

theorem assembleTokens_u {m operand : List Char} {make : Word → Instr} {arg : Word} (hm : m ≠ "TICKS".toList)
    (hform : formOf m = some (.u make)) (harg : parseU operand = some arg) :
    assembleTokens [m, operand] = some [encode (make arg)] := by
  simp only [assembleTokens, if_neg hm, hform, harg, Option.map_some]

theorem assembleTokens_ticks {digits : List Char} {n : Nat} (h : parseDigits 10 digits = some n) :
    assembleTokens ["TICKS".toList, digits] = some (ticks n) := by
  simp only [assembleTokens, if_pos, h, Option.map_some]

/-- The commands that stand in the table with no operand are of kind N, and so encode ARG as 0. -/
theorem argument_of_mem_mnemonics {name : String} {i : Instr} (h : (name, .n i) ∈ mnemonics) : i.argument = 0 := by
  have hform : AsmForm.n i ∈ mnemonics.map Prod.snd := List.mem_map_of_mem h
  simp only [mnemonics, List.map_cons, List.map_nil, List.mem_cons, AsmForm.n.injEq, reduceCtorEq, false_or, or_false,
    List.not_mem_nil] at hform
  rcases hform with rfl | rfl | rfl | rfl | rfl | rfl | rfl | rfl | rfl | rfl
  all_goals rfl

/-- Settles O43: each mnemonic is found in the table, and its operand, if it has one, is read back. -/
theorem assemblerEncodesLines : Obligations.AssemblerEncodesLines := by
  refine ⟨fun arg => ?hex, ?noOperand, fun digits n h => assembleTokens_ticks h⟩
  case hex =>
    have hform : formOf "SET_CNT".toList = some (.u .setCnt) :=
      formOf_of_mem (row := ("SET_CNT", .u .setCnt)) (by simp [mnemonics])
    exact assembleTokens_u (make := .setCnt) (by simp) hform (parseU_hexDigits arg)
  case noOperand =>
    rintro ⟨name, form⟩ hrow i rfl
    rw [assembleTokens_n (formOf_of_mem hrow), encode, argument_of_mem_mnemonics hrow]

/-! ### Responses (30_encoding.md R61; 20_memory.md R56) -/

/-- A command returns one response, with DATA = 0 where ERR = 1. -/
theorem exec_answered {i : Instr} {s t : State} (h : exec i s = .next t) :
    ∃ e d, Answered s t e d ∧ (e = true → d = 0) := by
  rcases exec_cases h with ⟨-, rfl⟩ | ⟨-, ⟨d, rfl, -⟩ | ⟨v, rfl, -⟩ | ⟨v, rfl, -⟩ | ⟨arg, rfl, -⟩⟩
  case inl => exact ⟨true, 0, ⟨0, rfl, rfl⟩, fun _ => rfl⟩
  all_goals exact ⟨false, _, ⟨_, rfl, rfl⟩, fun herr => nomatch herr⟩

/-- Settles O54: a command word is taken and recorded before its one response, the command's or IllegalCommand's;
events answer nothing. -/
theorem oneResponsePerCommand : Obligations.OneResponsePerCommand := by
  intro s t h
  rcases step_cases h with ⟨hin, rfl⟩ |
    ⟨e, rest, hin, ⟨rfl, rfl⟩ | ⟨rfl, rfl⟩ | ⟨w, rfl, hcommand⟩⟩
  case inr.inr.inr =>
    refine ⟨fun w' rest' hin' => ?_, fun hnone => absurd hin (hnone w rest)⟩
    cases hin.symm.trans hin'
    rcases hcommand with ⟨i, -, hexec⟩ | ⟨r, -, rfl⟩
    · obtain ⟨-, hissued, -⟩ := exec_frame hexec
      obtain ⟨e, d, hanswered, hdata⟩ := exec_answered hexec
      exact ⟨exec_inputs hexec, hissued, e, d, hanswered, hdata⟩
    · exact ⟨rfl, rfl, true, 0, ⟨0, rfl, rfl⟩, fun _ => rfl⟩
  all_goals exact ⟨fun w' rest' hin' => (nomatch hin.symm.trans hin'), fun _ => ⟨rfl, rfl⟩⟩

end Sys2Proof.Machine
end

section
/-! PROOFS. The statements of 40_phase_accumulator.md: what each command of the family changes and answers, and what
any number of tick steps adds up to. -/

namespace Sys2Proof.Machine

/-! ### Words, frames and answers -/

/-- A row of the opcode map, read as the decoder reads every word of its OP. -/
theorem wordsDecodeTo_of_row {op : Opcode} {n : Needs} {make : Word → Instr}
    (hrow : ∀ arg, commandOf op arg = some (make arg)) (hneeds : ∀ arg, (make arg).needs = n) :
    WordsDecodeTo op n make :=
  fun v arg hv => (decode_mkWord_eq_ok_iff v op arg _).mpr ⟨hrow arg, by rw [Instr.wf, hneeds, hv]⟩

theorem sameOutside_refl (s : State) : SameOutside s s := ⟨rfl, rfl, rfl, fun _ => rfl⟩

theorem sameOutside_writeCnt (s : State) (v : Phase) : SameOutside s (s.writeCnt v) := sameOutside_refl s

theorem sameOutside_writeInc (s : State) (v : Phase) : SameOutside s (s.writeInc v) := sameOutside_refl s

theorem SameOutside.respond {s t : State} (h : SameOutside s t) (e : Bool) (d : Word) :
    SameOutside s (t.respond e d) := h

/-- A response appended to what `s` had returned is the one answer since `s`, whatever was written between. -/
theorem answered_respond {s t : State} (h : t.responses = s.responses) (e : Bool) (d : Word) :
    Answered s (t.respond e d) e d.toNat := ⟨d, by rw [respond_responses, h], rfl⟩

theorem onlyAnswers_respond (s : State) (d : Word) : OnlyAnswers s (s.respond false d) d.toNat :=
  ⟨⟨rfl, rfl, rfl⟩, (sameOutside_refl s).respond _ _, answered_respond rfl false d⟩

theorem answersWith_of_onlyAnswers {i : Instr} {s : State} {d : Nat}
    (h : ∃ t, exec i s = .next t ∧ OnlyAnswers s t d) : AnswersWith i s d := by
  obtain ⟨t, hexec, -, -, hanswered⟩ := h
  exact ⟨t, hexec, hanswered⟩

/-- A phase quantity is zero-extended into DATA without loss. -/
theorem setWidth32_toNat (c : Phase) : (c.setWidth 32).toNat = c.toNat :=
  BitVec.toNat_setWidth_of_le (by decide)

/-! ### The increment (R80, R81) -/

/-- Settles O1: the operand is reduced by taking its low 24 bits; with INC = 0 a tick adds nothing. -/
theorem setIncStoresArgMod24 : Obligations.SetIncStoresArgMod24 := by
  refine ⟨wordsDecodeTo_of_row (fun _ => rfl) (fun _ => rfl), fun arg s => ?_⟩
  refine ⟨_, exec_setInc arg s, operandU_toNat arg, rfl, rfl, (sameOutside_writeInc s _).respond _ _,
    answered_respond rfl false 0, ?stopped⟩
  case stopped =>
    rintro rfl u hu
    cases hu
    exact BitVec.add_zero s.cnt

theorem exec_getInc_onlyAnswers (s : State) : ∃ t, exec .getInc s = .next t ∧ OnlyAnswers s t s.inc.toNat :=
  ⟨_, exec_getInc s, setWidth32_toNat s.inc ▸ onlyAnswers_respond s _⟩

/-- Settles O2: GET_INC reads what SET_INC left in INC. -/
theorem getIncAnswersIncrement : Obligations.GetIncAnswersIncrement := by
  refine ⟨wordsDecodeTo_of_row (fun _ => rfl) (fun _ => rfl), fun s => ⟨?reads, fun v t hset => ?readsBack⟩⟩
  case reads =>
    obtain ⟨t, hexec, honly⟩ := exec_getInc_onlyAnswers s
    exact ⟨t, hexec, honly, s.inc.isLt⟩
  case readsBack =>
    cases hset
    have hread := answersWith_of_onlyAnswers (exec_getInc_onlyAnswers ((s.writeInc (operandU v)).respond false 0))
    rwa [respond_inc, writeInc_inc, operandU_toNat] at hread

/-! ### The phase (R82, R83, R85, R86) -/

/-- Settles O3: the one register written is CNT, with the operand's low 24 bits. -/
theorem setCntStoresArgMod24 : Obligations.SetCntStoresArgMod24 :=
  ⟨wordsDecodeTo_of_row (fun _ => rfl) (fun _ => rfl), fun arg s =>
    ⟨_, exec_setCnt arg s, operandU_toNat arg, rfl, rfl, (sameOutside_writeCnt s _).respond _ _,
      answered_respond rfl false 0⟩⟩

theorem exec_getCnt_onlyAnswers (s : State) : ∃ t, exec .getCnt s = .next t ∧ OnlyAnswers s t s.cnt.toNat :=
  ⟨_, exec_getCnt s, setWidth32_toNat s.cnt ▸ onlyAnswers_respond s _⟩

theorem advancePhase_cnt_ne {s : State} (hinc : s.inc ≠ 0) : s.advancePhase.cnt ≠ s.cnt := by
  simpa using hinc

/-- Settles O4: the second answer is the advanced phase, which differs where INC is not 0. -/
theorem getCntAnswersPhase : Obligations.GetCntAnswersPhase := by
  refine ⟨wordsDecodeTo_of_row (fun _ => rfl) (fun _ => rfl), fun s => ⟨?reads, fun hinc => ?afterTick⟩⟩
  case reads =>
    obtain ⟨t, hexec, honly⟩ := exec_getCnt_onlyAnswers s
    exact ⟨t, hexec, honly, s.cnt.isLt⟩
  case afterTick =>
    exact ⟨_, _, tickEvent_eq s, answersWith_of_onlyAnswers (exec_getCnt_onlyAnswers s.advancePhase),
      fun heq => advancePhase_cnt_ne hinc (BitVec.eq_of_toNat_eq heq)⟩

/-- Settles O6: the one register written is CNT. -/
theorem resetPhaseClearsPhase : Obligations.ResetPhaseClearsPhase :=
  ⟨wordsDecodeTo_of_row (fun _ => rfl) (fun _ => rfl), fun s =>
    ⟨_, exec_resetPhase s, rfl, rfl, rfl, (sameOutside_writeCnt s _).respond _ _, answered_respond rfl false 0⟩⟩

theorem boolWord_pastHalf_toNat (c : Phase) :
    (boolWord (pastHalf c)).toNat = if 2 ^ 23 < c.toNat then 1 else 0 := by
  by_cases h : 2 ^ 23 < c.toNat
  · rw [pastHalf, decide_eq_true h, if_pos h]
    rfl
  · rw [pastHalf, decide_eq_false h, if_neg h]
    rfl

/-- Settles O7: IS_HALF answers the comparison and writes no register. -/
theorem isHalfComparesPhase : Obligations.IsHalfComparesPhase :=
  ⟨wordsDecodeTo_of_row (fun _ => rfl) (fun _ => rfl), fun s =>
    ⟨_, exec_isHalf s, boolWord_pastHalf_toNat s.cnt ▸ onlyAnswers_respond s _⟩⟩

/-! ### Ticks (R84, R87) -/

theorem words_tick : WordsDecodeTo 0x05 .always (fun _ => .tick) :=
  wordsDecodeTo_of_row (fun _ => rfl) (fun _ => rfl)

/-- The commands that write CNT, named by their rows of the opcode map. -/
theorem command_of_exec_changes_cnt {i : Instr} {s t : State} (h : exec i s = .next t) (hne : t.cnt ≠ s.cnt) :
    i = .tick ∨ i = .resetPhase ∨ ∃ a, i = .setCnt a := by
  have hrow := commandOf_opcode_argument i
  rcases opcode_of_exec_changes_cnt h hne with hop | hop | hop <;> rw [hop] at hrow
  · exact .inr (.inr ⟨_, (Option.some.inj hrow).symm⟩)
  · exact .inl (Option.some.inj hrow).symm
  · exact .inr (.inl (Option.some.inj hrow).symm)

/-- Settles O5: TICK and the event share one update, and a command that changes CNT is TICK or one of the two
that write it outright. -/
theorem tickAdvancesPhase : Obligations.TickAdvancesPhase := by
  refine ⟨words_tick, fun s => ⟨?command, ?event⟩, fun _ _ _ => command_of_exec_changes_cnt⟩
  case command =>
    exact ⟨_, exec_tick s, advancePhase_cnt_toNat s, rfl, rfl, (sameOutside_writeCnt s _).respond _ _,
      answered_respond rfl false 0⟩
  case event =>
    exact ⟨_, tickEvent_eq s, advancePhase_cnt_toNat s, rfl, rfl, sameOutside_writeCnt s _, rfl⟩

/-- From `s` to `t` there were `n` tick steps, `events` of them tick events, which have no response. -/
structure Ticked (s t : State) (n events : Nat) : Prop where
  cnt : t.cnt.toNat = (s.cnt.toNat + n * s.inc.toNat) % 2 ^ 24
  inc : t.inc = s.inc
  sel : t.sel = s.sel
  cfg : t.cfg = s.cfg
  inputs : t.inputs = s.inputs
  responses : t.responses.length + events = s.responses.length + n

theorem Ticked.refl (s : State) : Ticked s s 0 0 where
  cnt := by rw [Nat.zero_mul, Nat.add_zero, Nat.mod_eq_of_lt s.cnt.isLt]
  inc := rfl
  sel := rfl
  cfg := rfl
  inputs := rfl
  responses := rfl

/-- Tick steps add up: the phases mod 2^24, the responses one by one. -/
theorem Ticked.trans {s t u : State} {n m k l : Nat} (h : Ticked s t n k) (h' : Ticked t u m l) :
    Ticked s u (n + m) (k + l) where
  cnt := by rw [h'.cnt, h.cnt, h.inc, Nat.mod_add_mod, Nat.add_assoc, ← Nat.add_mul]
  inc := h'.inc.trans h.inc
  sel := h'.sel.trans h.sel
  cfg := h'.cfg.trans h.cfg
  inputs := h'.inputs.trans h.inputs
  responses := by
    have hfirst := h.responses
    have hsecond := h'.responses
    omega

theorem ticked_advancePhase (s : State) : Ticked s s.advancePhase 1 1 where
  cnt := by rw [Nat.one_mul, advancePhase_cnt_toNat]
  inc := rfl
  sel := rfl
  cfg := rfl
  inputs := rfl
  responses := rfl

/-- A TICK word does what the event does, and is recorded and answered. -/
theorem ticked_tickWord (s : State) (w : CmdWord) :
    Ticked s ((s.record w).advancePhase.respond false 0) 1 0 where
  cnt := (ticked_advancePhase s).cnt
  inc := rfl
  sel := rfl
  cfg := rfl
  inputs := rfl
  responses := List.length_append

theorem decode_of_opField_tick (v : Variant) {w : CmdWord} (hop : opField w = 0x05) : decode v w = .ok .tick := by
  rw [← mkWord_fields w, hop]
  exact words_tick v (argField w) rfl

/-- One delivered tick step is one step of the machine, whatever is delivered after it. -/
theorem step_deliver_isTick {e : Input} (he : e.isTick = true) (s : State) (es : List Input) :
    ∃ t, step (s.deliver (e :: es)) = .next (t.deliver es) ∧ Ticked s t 1 ([e].count .tick) := by
  cases e with
  | tick => exact ⟨_, step_deliver_tick s es, ticked_advancePhase s⟩
  | command w =>
    have hdec := decode_of_opField_tick s.cfg.variant (beq_iff_eq.mp he)
    exact ⟨_, (step_deliver_command_ok es hdec).trans (exec_tick _), ticked_tickWord s w⟩
  | powerOnReset => cases he

/-- A run over delivered tick steps completes, and each of them counts. -/
theorem runFor_deliver_ticks (es : List Input) : ∀ s : State, (∀ e ∈ es, e.isTick = true) →
    ∃ t, runFor es.length (s.deliver es) = .next t ∧ Ticked s t es.length (es.count .tick) := by
  induction es with
  | nil => exact fun s _ => ⟨s, runFor_zero _, Ticked.refl s⟩
  | cons e es ih =>
    intro s hes
    obtain ⟨he, hrest⟩ := List.forall_mem_cons.mp hes
    obtain ⟨s', hstep, hone⟩ := step_deliver_isTick he s es
    obtain ⟨t, hrun, hmany⟩ := ih s' hrest
    refine ⟨t, (runFor_succ hstep).trans hrun, ?_⟩
    have hcount : (e :: es).count .tick = [e].count .tick + es.count .tick := List.count_append (l₁ := [e])
    rw [hcount, List.length_cons, Nat.add_comm es.length 1]
    exact hone.trans hmany

/-- Settles O8, by induction on the inputs delivered. -/
theorem ticksAreAdditive : Obligations.TicksAreAdditive := by
  intro es s hes
  obtain ⟨t, hrun, hticked⟩ := runFor_deliver_ticks es s hes
  exact ⟨t, hrun, hticked.cnt, hticked.inc, hticked.sel, hticked.cfg, hticked.inputs, hticked.responses⟩

/-! ### Legality (R89) -/

/-- A command that the variant has answers ERR = 0 whenever it completes. -/
theorem exec_answered_of_wf {i : Instr} {s t : State} (hwf : i.wf s.cfg.variant = true) (h : exec i s = .next t) :
    ∃ d, Answered s t false d := by
  rcases exec_cases h with ⟨hno, -⟩ | ⟨-, ⟨d, rfl, -⟩ | ⟨v, rfl, -⟩ | ⟨v, rfl, -⟩ | ⟨arg, rfl, -⟩⟩
  case inl => exact absurd (hwf.symm.trans hno) (by decide)
  all_goals exact ⟨_, answered_respond rfl false _⟩

/-- The rows 0x01 to 0x07 of the opcode map need no option, and GET_VALUE is not among them. -/
theorem always_of_opcode_le_seven {i : Instr} (hop : i.opcode.toNat ≤ 7) : i.needs = .always ∧ i ≠ .getValue := by
  cases i with
  | setInc _ | getInc | setCnt _ | getCnt | tick | resetPhase | isHalf => exact ⟨rfl, nofun⟩
  | _ => exact absurd hop (by simp [Instr.opcode])

/-- Settles O9: the family needs no option, so each of its commands decodes and answers in every variant; CNT and
INC are 24 bits wide. -/
theorem phaseFamilyNeverErrs : Obligations.PhaseFamilyNeverErrs := by
  intro i s hop
  obtain ⟨hneeds, hvalue⟩ := always_of_opcode_le_seven hop
  have hwf : ∀ v : Variant, i.wf v = true := fun v => by rw [Instr.wf, hneeds, Needs.met]
  obtain ⟨t, hexec⟩ := exec_completes (s := s) fun heq => absurd heq hvalue
  obtain ⟨d, hanswered⟩ := exec_answered_of_wf (hwf _) hexec
  exact ⟨fun v => decodeInvertsEncode v i (hwf v), t, d, hexec, hanswered, t.cnt.isLt, t.inc.isLt⟩

end Sys2Proof.Machine
end

section
/-! PROOFS. The statements of 41_wavetable_interpolator.md: the tables and the selector, the interpolation as integer
arithmetic, and what GET_VALUE answers. -/

namespace Sys2Proof.Machine

/-! ### The tables and the selector (R100, R101, R105) -/

/-- Settles O10: an entry in range is the configuration's, and its address is by definition 257 * s + i. -/
theorem tableReadsWaveEntry : Obligations.TableReadsWaveEntry := by
  intro s sel i hsel hi
  obtain ⟨b, hb⟩ := waveEntry_exists s.cfg sel.toNat i hsel hi
  have htable : s.table sel i = some b := (table_eq_waveEntry s sel i hi).trans hb
  exact ⟨b, htable, htable, hb, Nat.le_of_lt_succ b.isLt⟩

/-- The effective selector is a function of the configuration, which no command changes, and of SEL. -/
theorem setWave_of_exec_changes_effectiveSel {i : Instr} {s t : State} (h : exec i s = .next t)
    (hne : t.effectiveSel ≠ s.effectiveSel) : ∃ a, i = .setWave a := by
  have hcfg : t.cfg = s.cfg := (exec_frame h).1
  have hsel : t.sel ≠ s.sel := fun heq => hne (by rw [State.effectiveSel, State.effectiveSel, hcfg, heq])
  obtain ⟨arg, hi, -, -⟩ := setWave_of_exec_changes_sel h hsel
  exact ⟨arg, hi⟩

/-- SEL = 0 reads as Sine whether or not the variant has the option. -/
theorem effectiveSel_of_sel_zero {s : State} (h : s.sel = 0) : s.effectiveSel = 0 := by
  rw [State.effectiveSel, h, ite_self]

/-- Settles O12: both variants from the definition; a command that changes the effective selector changes SEL. -/
theorem effectiveSelectorRule : Obligations.EffectiveSelectorRule := by
  refine ⟨fun s => effectiveSel_of_hasWaveSelect, fun s hbase => ?base, fun c => ?reset,
    fun i s t => setWave_of_exec_changes_effectiveSel⟩
  case base => rw [effectiveSel_of_base hbase]; rfl
  case reset => rw [effectiveSel_of_sel_zero (powerOn_sel c)]; rfl

theorem sameOutside_writeSel (s : State) (v : Selector) : SameOutside s (s.writeSel v) := sameOutside_refl s

theorem onlyIllegal_respond (s : State) : OnlyIllegal s (s.respond true 0) :=
  ⟨⟨rfl, rfl, rfl⟩, (sameOutside_refl s).respond _ _, answered_respond rfl true 0⟩

theorem exec_setWave_of_present {s : State} (h : s.cfg.variant.hasWaveSelect = true) (arg : Word) :
    exec (.setWave arg) s = .next ((s.writeSel (operandS arg)).respond false 0) := by
  rw [exec_setWave, if_pos h]

theorem exec_setWave_of_base {s : State} (h : s.cfg.variant.hasWaveSelect = false) (arg : Word) :
    exec (.setWave arg) s = .next (s.respond true 0) := by
  rw [exec_setWave, h, if_neg Bool.false_ne_true]

/-- Settles O16: with the option the one register written is SEL, with the operand of kind S; without it the
command answers IllegalCommand. -/
theorem setWaveSelectsTable : Obligations.SetWaveSelectsTable := by
  refine ⟨wordsDecodeTo_of_row (fun _ => rfl) (fun _ => rfl), fun arg s =>
    ⟨fun hwave => ?select, fun hbase => ?base⟩⟩
  case select =>
    exact ⟨_, exec_setWave_of_present hwave arg, operandS_toNat arg, rfl, rfl,
      (sameOutside_writeSel s _).respond _ _, answered_respond rfl false 0⟩
  case base => exact ⟨_, exec_setWave_of_base hbase arg, onlyIllegal_respond s⟩

/-! ### The interpolation (R103) -/

/-- What bounds both entries from below bounds the interpolation. -/
theorem le_interpolate {low high : Byte} {a frac : Nat} (hlow : a ≤ low.toNat) (hhigh : a ≤ high.toNat)
    (hfrac : frac ≤ 65536) : (a : Int) * 65536 ≤ interpolate low high frac := by
  have hl : (a : Int) * (65536 - frac) ≤ low.toNat * (65536 - frac) :=
    mul_le_mul_of_nonneg_right (by omega) (by omega)
  have hh : (a : Int) * frac ≤ high.toNat * frac := mul_le_mul_of_nonneg_right (by omega) (by omega)
  rw [interpolate_eq_weighted]
  linarith

/-- What bounds both entries from above bounds the interpolation. -/
theorem interpolate_le {low high : Byte} {a frac : Nat} (hlow : low.toNat ≤ a) (hhigh : high.toNat ≤ a)
    (hfrac : frac ≤ 65536) : interpolate low high frac ≤ (a : Int) * 65536 := by
  have hl : (low.toNat : Int) * (65536 - frac) ≤ a * (65536 - frac) :=
    mul_le_mul_of_nonneg_right (by omega) (by omega)
  have hh : (high.toNat : Int) * frac ≤ a * frac := mul_le_mul_of_nonneg_right (by omega) (by omega)
  rw [interpolate_eq_weighted]
  linarith

theorem interpolate_zero (low high : Byte) : interpolate low high 0 = ((low.toNat * 2 ^ 16 : Nat) : Int) := by
  simp [interpolate]

/-- At the last fraction the interpolation is one step short of the next entry. -/
theorem interpolate_last (low high : Byte) :
    interpolate low high 65535 = ((low.toNat + 65535 * high.toNat : Nat) : Int) := by
  rw [interpolate_eq_weighted]
  push_cast
  ring

/-- Between two fractions of one segment the interpolation moves by high - low for each unit. -/
theorem interpolate_sub (low high : Byte) (frac frac' : Nat) :
    interpolate low high frac' - interpolate low high frac
      = ((high.toNat : Int) - (low.toNat : Int)) * ((frac' : Int) - (frac : Int)) := by
  unfold interpolate
  ring

/-- The interpolation fits DATA: as a word it has its own value. -/
theorem interpolate_word_toNat (low high : Byte) (c : Phase) :
    ((BitVec.ofInt 32 (interpolate low high (phaseFrac c))).toNat : Int) = interpolate low high (phaseFrac c) := by
  obtain ⟨hnonneg, hle⟩ := interpolate_bounds low high (phaseFrac c) (phaseFrac_lt c).le
  exact ofInt32_toNat hnonneg (by omega)

theorem setWidth32_eq_natCast (b : Byte) : b.setWidth 32 = ((b.toNat : Nat) : Word) :=
  (BitVec.ofNat_toNat 32 b).symm

/-- Taking an integer mod 2^32 is a ring homomorphism, so the steps of the rule may be done on words. -/
theorem interpolate_on_words (low high : Byte) (frac : Nat) :
    (low.setWidth 32 <<< 16) + (high.setWidth 32 - low.setWidth 32) * BitVec.ofNat 32 frac
      = BitVec.ofInt 32 (interpolate low high frac) := by
  have hshift : low.setWidth 32 <<< 16 = low.setWidth 32 * (2 ^ 16 : Word) :=
    BitVec.shiftLeft_eq_mul_twoPow _ 16
  calc (low.setWidth 32 <<< 16) + (high.setWidth 32 - low.setWidth 32) * BitVec.ofNat 32 frac
      = (low.toNat : Word) * 2 ^ 16 + ((high.toNat : Word) - (low.toNat : Word)) * (frac : Word) := by
        rw [hshift, setWidth32_eq_natCast, setWidth32_eq_natCast, BitVec.natCast_eq_ofNat 32 frac]
    _ = ((interpolate low high frac : Int) : Word) := by
        rw [interpolate]
        push_cast
        rfl

/-- Settles O14: the weights are 65536 - frac and frac, both in range, and the sum stays below 2^32. -/
theorem interpolationIsExact : Obligations.InterpolationIsExact := by
  intro low high c
  have hfrac : phaseFrac c ≤ 65536 := (phaseFrac_lt c).le
  obtain ⟨hnonneg, hle⟩ := interpolate_bounds low high (phaseFrac c) hfrac
  exact ⟨phaseFrac_lt c, interpolate_eq_weighted low high _, hnonneg, hle,
    le_interpolate (min_le_left _ _) (min_le_right _ _) hfrac,
    interpolate_le (le_max_left _ _) (le_max_right _ _) hfrac,
    interpolate_word_toNat low high c, interpolate_on_words low high _⟩

/-! ### GET_VALUE (R102, R104, R106) -/

/-- Entry 256 of a table is its entry 0, as the block reads them. -/
theorem table_last_eq_first (s : State) (sel : Selector) : s.table sel 256 = s.table sel 0 := by
  rw [table_eq_waveEntry s sel 256 le_rfl, table_eq_waveEntry s sel 0 (Nat.zero_le _), waveEntry_closed]

/-- Settles O13: the response is the interpolation as a word, which has the interpolation's value. -/
theorem getValueInterpolates : Obligations.GetValueInterpolates := by
  refine ⟨wordsDecodeTo_of_row (fun _ => rfl) (fun _ => rfl), fun s hsel => ?_⟩
  obtain ⟨low, high, hlow, hhigh, hexec⟩ := exec_getValue hsel
  have hdata := interpolate_word_toNat low high s.cnt
  rw [phaseIndex_eq] at hlow hhigh
  refine ⟨low, high, _, _, hlow, hhigh, fun hlast => ?wrap, hexec, onlyAnswers_respond s _, ?data⟩
  case wrap => rw [← hhigh, hlast, table_last_eq_first]
  case data => rw [hdata, interpolate, phaseFrac_eq]

theorem tableAddress_lt_romSize {sel : Selector} {i : Nat} (hsel : sel.toNat ≤ 6) (hi : i ≤ 256) :
    tableAddress sel i < romSize := by
  unfold tableAddress tableLength romSize
  omega

/-- Settles O15: the index is the top byte of CNT, so both entries exist for every legal selector. -/
theorem getValueStaysInTable : Obligations.GetValueStaysInTable := by
  refine fun s => ⟨phaseIndex_eq s.cnt, phaseIndex_le s.cnt, fun hsel => ⟨?address, fun f hfault => ?completes⟩⟩
  case address => exact tableAddress_lt_romSize hsel (Nat.succ_le_succ (phaseIndex_le s.cnt))
  case completes =>
    obtain ⟨t, hexec⟩ := exec_completes (i := .getValue) fun _ => hsel
    cases hexec.symm.trans hfault

/-- What GET_VALUE answers, for every selector: the interpolation of the two entries, where they exist. -/
theorem answersWith_getValue_iff (s : State) (d : Nat) :
    AnswersWith .getValue s d ↔
      ∃ low high, s.table s.effectiveSel (phaseIndex s.cnt) = some low ∧
        s.table s.effectiveSel (phaseIndex s.cnt + 1) = some high ∧
        (d : Int) = interpolate low high (phaseFrac s.cnt) := by
  constructor
  · rintro ⟨t, hexec, data, hresp, rfl⟩
    obtain ⟨low, high, hlow, hhigh⟩ := table_entries_of_exec_getValue hexec
    cases (exec_getValue_of_table hlow hhigh).symm.trans hexec
    obtain rfl : _ = data := by simpa using hresp
    exact ⟨low, high, hlow, hhigh, interpolate_word_toNat low high s.cnt⟩
  · rintro ⟨low, high, hlow, hhigh, hd⟩
    have hword := interpolate_word_toNat low high s.cnt
    exact ⟨_, exec_getValue_of_table hlow hhigh, _, rfl, by omega⟩

/-- Settles O18: two states that agree on the ROM agree on every table entry, and the answer is an expression in
those and CNT. -/
theorem sampleDependsOnPhaseAndTable : Obligations.SampleDependsOnPhaseAndTable := by
  intro s s' hcnt hsel hrom d
  have htable : s.table = s'.table := funext₂ fun sel i => hrom (tableAddress sel i)
  rw [answersWith_getValue_iff, answersWith_getValue_iff, hcnt, hsel, htable]

/-- With CNT set to `c`, GET_VALUE answers from the two entries at `c`'s index, however they came to be known. -/
theorem answersWith_getValue_writeCnt {s : State} {c : Phase} {low high : Byte}
    (hlow : s.table s.effectiveSel (c.toNat / 2 ^ 16) = some low)
    (hhigh : s.table s.effectiveSel (c.toNat / 2 ^ 16 + 1) = some high) (d : Nat) :
    AnswersWith .getValue (s.writeCnt c) d ↔ (d : Int) = interpolate low high (c.toNat % 2 ^ 16) := by
  simp only [answersWith_getValue_iff, writeCnt_table, writeCnt_effectiveSel, writeCnt_cnt, phaseIndex_eq, phaseFrac_eq,
    hlow, hhigh, Option.some.injEq, exists_and_left, exists_eq_left']

/-- Boundary exactness: where the fraction is 0 the sample is the entry itself, scaled by 2^16. -/
theorem answersWith_getValue_boundary {s : State} {c : Phase} {b : Byte} (hsel : s.effectiveSel.toNat ≤ 6)
    (hfrac : c.toNat % 2 ^ 16 = 0) (hb : s.table s.effectiveSel (c.toNat / 2 ^ 16) = some b) :
    AnswersWith .getValue (s.writeCnt c) (b.toNat * 2 ^ 16) := by
  have hc := c.isLt
  obtain ⟨high, hhigh⟩ := table_entries_exist hsel (c.toNat / 2 ^ 16 + 1) (by omega)
  rw [answersWith_getValue_writeCnt hb hhigh, hfrac, interpolate_zero]

/-- Two samples of one segment differ by high - low for each unit of phase between them. -/
theorem getValue_segment_difference {s : State} {c c' : Phase} {low high : Byte} {d d' : Nat}
    (hindex : c.toNat / 2 ^ 16 = c'.toNat / 2 ^ 16)
    (hlow : s.table s.effectiveSel (c.toNat / 2 ^ 16) = some low)
    (hhigh : s.table s.effectiveSel (c.toNat / 2 ^ 16 + 1) = some high)
    (hd : AnswersWith .getValue (s.writeCnt c) d) (hd' : AnswersWith .getValue (s.writeCnt c') d') :
    (d' : Int) - d = ((high.toNat : Int) - low.toNat) * ((c'.toNat : Int) - c.toNat) := by
  rw [answersWith_getValue_writeCnt hlow hhigh] at hd
  rw [hindex] at hlow hhigh
  rw [answersWith_getValue_writeCnt hlow hhigh] at hd'
  have hfrac : ((c'.toNat % 2 ^ 16 : Nat) : Int) - ((c.toNat % 2 ^ 16 : Nat) : Int) = c'.toNat - c.toNat := by omega
  rw [hd, hd', interpolate_sub, hfrac]

/-- Settles O17: each law is the interpolation at the fractions it names; the last segment ends in entry 256, which
is entry 0. -/
theorem sampleShapeLaws : Obligations.SampleShapeLaws := by
  intro s hsel
  refine ⟨fun c b => answersWith_getValue_boundary hsel, ?segment,
    fun last first hlast hfirst => ⟨?lastUnit, ?wrapped⟩⟩
  case segment =>
    intro c c' low high d d' hindex hle hlow hhigh hd hd'
    have hdiff := getValue_segment_difference hindex hlow hhigh hd hd'
    refine ⟨fun hrise => ?rise, fun hfall => ?fall, fun hstep => ?step⟩
    case rise =>
      have hup : 0 ≤ ((high.toNat : Int) - low.toNat) * ((c'.toNat : Int) - c.toNat) :=
        mul_nonneg (by omega) (by omega)
      omega
    case fall =>
      have hdown : ((high.toNat : Int) - low.toNat) * ((c'.toNat : Int) - c.toNat) ≤ 0 :=
        mul_nonpos_of_nonpos_of_nonneg (by omega) (by omega)
      omega
    case step =>
      rw [hdiff, hstep]
      push_cast
      ring
  case lastUnit =>
    have hnext : s.table s.effectiveSel 256 = some first := (table_last_eq_first s _).trans hfirst
    exact (answersWith_getValue_writeCnt hlast hnext _).mpr (interpolate_last last first).symm
  case wrapped => exact answersWith_getValue_boundary (c := 0) hsel rfl hfirst

end Sys2Proof.Machine
end

section
/-! PROOFS. The binary32 format (42_frequency_converter.md R120, R121): the fields of a word, the grid its values lie
on, and rounding to the nearest of them. -/

namespace Sys2Proof.Machine

/-! ### The fields of a word (R120) -/

theorem f32Sign_eq (b : Word) : f32Sign b = decide (b.toNat / 2 ^ 31 = 1) := by
  have hlt := b.isLt
  rw [f32Sign, BitVec.getLsbD, Nat.testBit_eq_decide_div_mod_eq, Nat.mod_eq_of_lt (by omega)]

theorem f32Exponent_eq (b : Word) : f32Exponent b = b.toNat / 2 ^ 23 % 2 ^ 8 := by
  rw [f32Exponent, BitVec.extractLsb'_toNat, Nat.shiftRight_eq_div_pow]

theorem f32Fraction_eq (b : Word) : f32Fraction b = b.toNat % 2 ^ 23 := by
  rw [f32Fraction, BitVec.extractLsb'_toNat, Nat.shiftRight_zero]

theorem f32Fraction_lt (b : Word) : f32Fraction b < 2 ^ 23 := by
  rw [f32Fraction_eq]
  exact Nat.mod_lt _ (by norm_num)

/-- A word is made of its three fields. -/
theorem word_eq_of_fields {b b' : Word} (hsign : f32Sign b = f32Sign b')
    (hexp : f32Exponent b = f32Exponent b') (hfrac : f32Fraction b = f32Fraction b') : b = b' := by
  rw [f32Sign_eq, f32Sign_eq, decide_eq_decide] at hsign
  rw [f32Exponent_eq, f32Exponent_eq] at hexp
  rw [f32Fraction_eq, f32Fraction_eq] at hfrac
  have hlt := b.isLt
  have hlt' := b'.isLt
  exact BitVec.eq_of_toNat_eq (by omega)

theorem f32Magnitude_subnormal (f : Nat) : f32Magnitude 0 f = f * pow2 (-149) := rfl

theorem f32Magnitude_normal {e : Nat} (he : e ≠ 0) (f : Nat) :
    f32Magnitude e f = (2 ^ 23 + f : Nat) * pow2 (e - 150) := by
  rw [f32Magnitude, if_neg he]

theorem f32Decode_special {b : Word} (h : f32Exponent b = 255) :
    f32Decode b = if f32Fraction b ≠ 0 then .nan else if f32Sign b then .negInf else .posInf := by
  rw [f32Decode, if_pos h]

theorem f32Decode_finite {b : Word} (h : f32Exponent b ≠ 255) :
    f32Decode b = .real ((if f32Sign b then -1 else 1) * f32Magnitude (f32Exponent b) (f32Fraction b)) := by
  rw [f32Decode, if_neg h]
  cases f32Sign b <;> simp

/-- Settles O19: the fields are these digits of the word's number, and the four cases are those of the decoder. -/
theorem decodeBinary32ByFields : Obligations.DecodeBinary32ByFields := by
  intro b e f sign
  have hs : (f32Sign b = true) = (b.toNat / 2 ^ 31 = 1) := by rw [f32Sign_eq, decide_eq_true_eq]
  have he : f32Exponent b = e := f32Exponent_eq b
  have hf : f32Fraction b = f := f32Fraction_eq b
  refine ⟨fun h255 hf0 => ?nan, fun h255 hf0 => ?infinite, fun h0 => ?subnormal, fun h1 h254 => ?normal⟩
  case nan => rw [f32Decode_special (he.trans h255), if_pos (hf ▸ hf0)]
  case infinite =>
    rw [f32Decode_special (he.trans h255), if_neg (not_not.mpr (hf.trans hf0))]
    simp only [hs]
  case subnormal =>
    rw [f32Decode_finite (by omega), he, hf, h0, f32Magnitude_subnormal, pow2_eq_zpow]
    simp only [hs, sign]
  case normal =>
    rw [f32Decode_finite (by omega), he, hf, f32Magnitude_normal (by omega), pow2_eq_zpow]
    simp only [hs, sign]
    push_cast
    rfl

/-! ### The grid of the values (R120) -/

/-- Every finite value is a whole multiple, below 2^24, of a power of two. -/
theorem f32Decode_real_multiple {b : Word} {y : ℚ} (h : f32Decode b = .real y) :
    ∃ m d : Int, m < 2 ^ 24 ∧ y = m * pow2 d := by
  have hlt := f32Fraction_lt b
  have hfinite : f32Exponent b ≠ 255 := by
    intro h255
    rw [f32Decode_special h255] at h
    split at h
    · cases h
    · split at h <;> cases h
  rw [f32Decode_finite hfinite, Ext.real.injEq] at h
  obtain ⟨n, d, hn, hmag⟩ : ∃ (n : Nat) (d : Int), n < 2 ^ 24 ∧
      f32Magnitude (f32Exponent b) (f32Fraction b) = n * pow2 d := by
    by_cases h0 : f32Exponent b = 0
    · exact ⟨f32Fraction b, -149, by omega, by rw [h0, f32Magnitude_subnormal]⟩
    · exact ⟨_, _, by omega, f32Magnitude_normal h0 _⟩
  rw [hmag] at h
  split at h
  · exact ⟨-n, d, by omega, by rw [← h]; push_cast; ring⟩
  · exact ⟨n, d, by omega, by rw [← h]; push_cast; ring⟩

theorem pow2_lt_pow2_iff {a b : Int} : pow2 a < pow2 b ↔ a < b := by
  rw [pow2_eq_zpow, pow2_eq_zpow]
  exact zpow_lt_zpow_iff_right₀ one_lt_two

theorem pow2_ofNat (n : Nat) : pow2 (n : Int) = 2 ^ n := by
  rw [pow2_eq_zpow, zpow_natCast]

/-- The least significand, in steps of the grid. -/
theorem pow2_eq_mul_step (e : Int) : pow2 e = 2 ^ 23 * pow2 (e - 23) := by
  rw [← pow2_ofNat, ← pow2_add, Nat.cast_ofNat, add_sub_cancel]

/-- The significand at which the exponent carries, in steps of the grid. -/
theorem pow2_succ_eq_mul_step (e : Int) : pow2 (e + 1) = 2 ^ 24 * pow2 (e - 23) := by
  rw [← pow2_ofNat, ← pow2_add]
  congr 1
  push_cast
  ring

/-- A value of at least 2^e lies on the grid of step 2^(e - 23). -/
theorem f32Decode_on_grid {b : Word} {y : ℚ} {e : Int} (h : f32Decode b = .real y) (hy : pow2 e ≤ y) :
    ∃ k : Int, y = k * pow2 (e - 23) := by
  obtain ⟨m, d, hm, rfl⟩ := f32Decode_real_multiple h
  have hexp : e < 24 + d := by
    rw [← pow2_lt_pow2_iff, pow2_add]
    calc pow2 e ≤ m * pow2 d := hy
      _ < pow2 24 * pow2 d := by
        refine mul_lt_mul_of_pos_right ?_ (pow2_pos d)
        rw [show (24 : Int) = (24 : Nat) from rfl, pow2_ofNat]
        exact_mod_cast hm
  obtain ⟨j, hj⟩ : ∃ j : Nat, d = j + (e - 23) := ⟨(d - (e - 23)).toNat, by omega⟩
  refine ⟨m * 2 ^ j, ?_⟩
  rw [hj, pow2_add, pow2_ofNat]
  push_cast
  ring

/-! ### Rounding (R121) -/

/-- A word of sign 0 whose biased exponent is neither 0 nor 255. -/
def PositiveNormal (b : Word) : Prop := f32Sign b = false ∧ 1 ≤ f32Exponent b ∧ f32Exponent b ≤ 254

theorem positiveNormal_packF32 {e n : Int} (he : -126 ≤ e) (he' : e ≤ 127) (hn : 2 ^ 23 ≤ n) (hn' : n < 2 ^ 24) :
    PositiveNormal (packF32 e n) := by
  obtain ⟨hsign, hexp, -⟩ := packF32_fields (e := e) (by omega) (by omega) hn hn'
  exact ⟨hsign, by omega, by omega⟩

/-- `b` is a positive normal word of value `v`, where `v` is the multiple of 2^(e - 23) nearest to `q`, and of two
nearest ones the one with an even fraction field. -/
structure RoundsTo (q : ℚ) (b : Word) (v : ℚ) (e n : Int) : Prop where
  normal : PositiveNormal b
  decode : f32Decode b = .real v
  value : v = n * pow2 (e - 23)
  exponent_le : pow2 e ≤ q
  near : |(n : ℚ) - q / pow2 (e - 23)| ≤ 1 / 2
  even : |(n : ℚ) - q / pow2 (e - 23)| = 1 / 2 → f32Fraction b % 2 = 0

/-- Where the significand reaches 2^24, the packed word is the next exponent's least (R121). -/
theorem f32Decode_packF32_carry {e : Int} (he : -126 ≤ e) (he' : e ≤ 126) :
    f32Decode (packF32 (e + 1) (2 ^ 23)) = .real ((2 ^ 24 : Int) * pow2 (e - 23)) := by
  have hvalue : ((2 ^ 23 : Int) : ℚ) * pow2 (e + 1 - 23) = ((2 ^ 24 : Int) : ℚ) * pow2 (e - 23) := by
    rw [Int.cast_pow, Int.cast_pow, Int.cast_ofNat, ← pow2_eq_mul_step, pow2_succ_eq_mul_step]
  rw [f32Decode_packF32 (by omega) (by omega) le_rfl (by norm_num), hvalue]

/-- The binary exponent of a number between the least and the largest normal value. -/
theorem exponent_mem_of_range {q : ℚ} {e : Int} (hlo : pow2 (-126) ≤ q) (hhi : q ≤ (2 ^ 24 - 1) * 2 ^ 104)
    (hle : pow2 e ≤ q) (hlt : q < pow2 (e + 1)) : -126 ≤ e ∧ e ≤ 127 := by
  have hmin := pow2_lt_pow2_iff.mp (hlo.trans_lt hlt)
  have hmax : e < (128 : Nat) := by
    rw [← pow2_lt_pow2_iff, pow2_ofNat]
    exact hle.trans_lt (hhi.trans_lt (by norm_num))
  omega

/-- Up to the largest finite value the greatest exponent does not carry. -/
theorem exponent_ne_of_carry {q : ℚ} {e : Int} (hhi : q ≤ (2 ^ 24 - 1) * 2 ^ 104)
    (hnear : |((2 ^ 24 : Int) : ℚ) - q / pow2 (e - 23)| ≤ 1 / 2) : e ≠ 127 := by
  rintro rfl
  have hq : q / pow2 (127 - 23) ≤ 2 ^ 24 - 1 := by
    rw [div_le_iff₀ (pow2_pos _), show (127 - 23 : Int) = (104 : Nat) from rfl, pow2_ofNat]
    exact hhi
  have := (abs_le.mp hnear).2
  push_cast at this
  linarith

/-- Up to the largest finite value, what the rounding returns. -/
theorem roundF32_roundsTo {q : ℚ} (hlo : pow2 (-126) ≤ q) (hhi : q ≤ (2 ^ 24 - 1) * 2 ^ 104) :
    ∃ v e n, RoundsTo q (roundF32 q) v e n := by
  obtain ⟨e, n, hle, hlt, hn, hn', hnear, heven, hround⟩ := roundF32_cases ((pow2_pos _).trans_le hlo)
  obtain ⟨he, he'⟩ := exponent_mem_of_range hlo hhi hle hlt
  refine ⟨n * pow2 (e - 23), e, n, ?_⟩
  by_cases hcarry : n = 2 ^ 24
  · subst hcarry
    have htop := exponent_ne_of_carry hhi hnear
    obtain ⟨-, -, hfrac⟩ := packF32_fields (e := e + 1) (n := 2 ^ 23) (by omega) (by omega) le_rfl (by norm_num)
    rw [hround, if_pos rfl]
    exact {
      normal := positiveNormal_packF32 (by omega) (by omega) le_rfl (by norm_num)
      decode := f32Decode_packF32_carry he (by omega)
      value := rfl
      exponent_le := hle
      near := hnear
      even := fun _ => by rw [hfrac]; rfl }
  · obtain ⟨-, -, hfrac⟩ := packF32_fields (e := e) (n := n) (by omega) (by omega) hn (by omega)
    rw [hround, if_neg hcarry]
    exact {
      normal := positiveNormal_packF32 he he' hn (by omega)
      decode := f32Decode_packF32 he he' hn (by omega)
      value := rfl
      exponent_le := hle
      near := hnear
      even := fun htie => by
        have := heven htie
        omega }

/-- The distance to a grid point, in steps of the grid. -/
theorem abs_mul_pow2_sub (k d : Int) (q : ℚ) : |k * pow2 d - q| = |k - q / pow2 d| * pow2 d := by
  have hd := pow2_pos d
  rw [← abs_of_pos hd, ← abs_mul, abs_of_pos hd, sub_mul, div_mul_cancel₀ _ hd.ne']

/-- A nearest integer is at least as near as any other, and nearer unless it is 1/2 away. -/
theorem nearest_int_le {x : ℚ} {n k : Int} (hn : |(n : ℚ) - x| ≤ 1 / 2) :
    |(n : ℚ) - x| ≤ |(k : ℚ) - x| ∧ (k ≠ n → |(k : ℚ) - x| = |(n : ℚ) - x| → |(n : ℚ) - x| = 1 / 2) := by
  by_cases hk : k = n
  · exact ⟨by rw [hk], fun h => absurd hk h⟩
  · have hstep : (1 : ℚ) ≤ |(k : ℚ) - n| := by exact_mod_cast Int.one_le_abs (sub_ne_zero.mpr hk)
    have htri : |(k : ℚ) - n| ≤ |(k : ℚ) - x| + |(n : ℚ) - x| := by
      rw [abs_sub_comm (n : ℚ) x]
      exact abs_sub_le _ _ _
    exact ⟨by linarith, fun _ heq => by linarith⟩

namespace RoundsTo

variable {q v : ℚ} {b : Word} {e n : Int}

/-- No multiple of the step is nearer, and of two nearest ones the fraction field taken is even. -/
theorem nearest_on_grid (h : RoundsTo q b v e n) (k : Int) :
    |v - q| ≤ |k * pow2 (e - 23) - q| ∧
      (k * pow2 (e - 23) ≠ v → |k * pow2 (e - 23) - q| = |v - q| → f32Fraction b % 2 = 0) := by
  have hstep := pow2_pos (e - 23)
  obtain ⟨hle, htie⟩ := nearest_int_le (k := k) h.near
  rw [h.value, abs_mul_pow2_sub, abs_mul_pow2_sub]
  refine ⟨mul_le_mul_of_nonneg_right hle hstep.le, fun hne heq => ?_⟩
  exact h.even (htie (fun hk => hne (by rw [hk])) (mul_right_cancel₀ hstep.ne' heq))

/-- Below the grid a value is farther from `q` than the least multiple of the step, 2^e. -/
theorem nearer_of_lt (h : RoundsTo q b v e n) {y : ℚ} (hy : y < pow2 e) : |v - q| < |y - q| := by
  have hleast : ((2 ^ 23 : Int) : ℚ) * pow2 (e - 23) = pow2 e := by
    rw [Int.cast_pow, Int.cast_ofNat, ← pow2_eq_mul_step]
  have hle := (h.nearest_on_grid (2 ^ 23)).1
  rw [hleast, abs_of_nonpos (sub_nonpos.mpr h.exponent_le)] at hle
  rw [abs_of_neg (sub_neg.mpr (hy.trans_le h.exponent_le))]
  linarith

/-- R121: at least as near as the value of any word, with ties to an even fraction field. -/
theorem nearest (h : RoundsTo q b v e n) {w : Word} {y : ℚ} (hw : f32Decode w = .real y) :
    |v - q| ≤ |y - q| ∧ (y ≠ v → |y - q| = |v - q| → f32Fraction b % 2 = 0) := by
  rcases lt_or_ge y (pow2 e) with hy | hy
  · have hlt := h.nearer_of_lt hy
    exact ⟨hlt.le, fun _ heq => absurd heq hlt.ne'⟩
  · obtain ⟨k, rfl⟩ := f32Decode_on_grid hw hy
    exact h.nearest_on_grid k

/-- A value that a word has is rounded to itself. -/
theorem eq_of_exact (h : RoundsTo q b v e n) {w : Word} (hw : f32Decode w = .real q) : v = q := by
  have hle := (h.nearest hw).1
  rwa [sub_self, abs_zero, abs_nonpos_iff, sub_eq_zero] at hle

/-- R130: the relative error is at most 2^-24. -/
theorem relative_error (h : RoundsTo q b v e n) : |v - q| ≤ q * pow2 (-24) := by
  rw [h.value, abs_mul_pow2_sub]
  calc |(n : ℚ) - q / pow2 (e - 23)| * pow2 (e - 23)
      ≤ 1 / 2 * pow2 (e - 23) := mul_le_mul_of_nonneg_right h.near (pow2_pos _).le
    _ = pow2 e * pow2 (-24) := by
      rw [show (1 / 2 : ℚ) = pow2 (-1) from rfl, ← pow2_add, ← pow2_add]
      congr 1
      ring
    _ ≤ q * pow2 (-24) := mul_le_mul_of_nonneg_right h.exponent_le (pow2_pos _).le

end RoundsTo

/-- Settles O20: a finite value lies on the grid of the rounded one or below it. -/
theorem roundBinary32IsNearest : Obligations.RoundBinary32IsNearest := by
  intro q hlo hhi
  obtain ⟨v, e, n, hround⟩ := roundF32_roundsTo (pow2_eq_zpow (-126) ▸ hlo) hhi
  exact ⟨v, hround.decode, fun b y hb => hround.nearest hb⟩

/-- The word of the one nearest significand, where it is less than 1/2 away. -/
theorem roundF32_eq_packF32 {q : ℚ} {e n : Int} (hle : pow2 e ≤ q) (hlt : q < pow2 (e + 1)) (hn : n < 2 ^ 24)
    (hnear : |(n : ℚ) - q / pow2 (e - 23)| < 1 / 2) : roundF32 q = packF32 e n := by
  obtain ⟨e', n', hle', hlt', -, -, hnear', -, hround⟩ := roundF32_cases ((pow2_pos e).trans_le hle)
  have he : e' = e := by
    have h := pow2_lt_pow2_iff.mp (hle'.trans_lt hlt)
    have h' := pow2_lt_pow2_iff.mp (hle.trans_lt hlt')
    omega
  subst he
  have hn' : n' = n := by
    by_contra hne
    obtain ⟨hnearest, htie⟩ := nearest_int_le (k := n') hnear.le
    have := htie hne (le_antisymm (nearest_int_le hnear').1 hnearest)
    linarith
  rw [hround, hn', if_neg hn.ne]

/-- A positive normal word, packed from its fields. -/
theorem packF32_of_fields {b : Word} (h : PositiveNormal b) :
    packF32 (f32Exponent b - 127) (2 ^ 23 + f32Fraction b) = b := by
  obtain ⟨hsign, hexp, hexp'⟩ := h
  have hlt := f32Fraction_lt b
  obtain ⟨hsign', hexp'', hfrac⟩ := packF32_fields (e := f32Exponent b - 127) (n := 2 ^ 23 + f32Fraction b)
    (by omega) (by omega) (by omega) (by omega)
  exact word_eq_of_fields (hsign'.trans hsign.symm) (by omega) (by omega)

/-- Settles O22: the value of such a word is a significand on its own grid, so the nearest one is itself. -/
theorem roundInvertsDecode : Obligations.RoundInvertsDecode := by
  intro b q hsign hexp hexp' hdecode
  have hpack := packF32_of_fields ⟨hsign, hexp, hexp'⟩
  have hlt := f32Fraction_lt b
  set e : Int := f32Exponent b - 127 with he
  set n : Int := 2 ^ 23 + f32Fraction b with hn
  rw [← hpack, f32Decode_packF32 (by omega) (by omega) (by omega) (by omega), Ext.real.injEq] at hdecode
  have hstep := pow2_pos (e - 23)
  rw [← hpack]
  refine roundF32_eq_packF32 ?_ ?_ (by omega) ?_
  · rw [pow2_eq_mul_step, ← hdecode]
    refine mul_le_mul_of_nonneg_right ?_ hstep.le
    exact_mod_cast (by omega : (2 ^ 23 : Int) ≤ n)
  · rw [pow2_succ_eq_mul_step, ← hdecode]
    refine mul_lt_mul_of_pos_right ?_ hstep
    exact_mod_cast (by omega : n < (2 ^ 24 : Int))
  · rw [← hdecode, mul_div_cancel_right₀ _ hstep.ne', sub_self, abs_zero]
    norm_num

end Sys2Proof.Machine
end

section
/-! PROOFS. The converter (42_frequency_converter.md R122 to R130): its constants in closed form, its clamp, and the
range, order and inverse laws of its two conversion functions. -/

namespace Sys2Proof.Machine

/-! ### The constants (R122 to R125) -/

theorem incrementPerHertz_eq (T : Nat) : incrementPerHertz T = 2 ^ 24 * (T : ℚ) / 1000 := by
  norm_num [incrementPerHertz, countsPerPeriod]

theorem minFreq_eq (T : Nat) : minFreq T = 1000 / ((T : ℚ) * 2 ^ 24) := by
  norm_num [minFreq, countsPerPeriod]

theorem maxPeriod_eq (T : Nat) : maxPeriod T = (T : ℚ) * 2 ^ 24 / 1000 := by
  rw [maxPeriod, minFreq_eq, one_div_div]

theorem maxFreq_eq (T : Nat) : maxFreq T = 500 / (T : ℚ) := by
  rw [maxFreq, incrementPerHertz_eq, countsPerPeriod]
  rcases eq_or_ne (T : ℚ) 0 with hT | hT
  · simp [hT]
  · field_simp
    norm_num

theorem minPeriod_eq (T : Nat) : minPeriod T = (T : ℚ) / 500 := by
  rw [minPeriod, maxFreq_eq, one_div_div]

section

variable {T : Nat} (hT : 1 ≤ T)
include hT

theorem maxFreq_mul_incrementPerHertz : maxFreq T * incrementPerHertz T = 2 ^ 23 := by
  have : (T : ℚ) ≠ 0 := by positivity
  rw [maxFreq_eq, incrementPerHertz_eq]
  field_simp
  norm_num

theorem minFreq_mul_incrementPerHertz : minFreq T * incrementPerHertz T = 1 := by
  have : (T : ℚ) ≠ 0 := by positivity
  rw [minFreq_eq, incrementPerHertz_eq]
  field_simp

theorem incrementPerHertz_div_maxPeriod : incrementPerHertz T / maxPeriod T = 1 := by
  rw [maxPeriod, div_div_eq_mul_div, div_one, mul_comm, minFreq_mul_incrementPerHertz hT]

theorem incrementPerHertz_div_minPeriod : incrementPerHertz T / minPeriod T = 2 ^ 23 := by
  rw [minPeriod, div_div_eq_mul_div, div_one, mul_comm, maxFreq_mul_incrementPerHertz hT]

theorem minFreq_lt_maxFreq : minFreq T < maxFreq T := by
  rw [← mul_lt_mul_iff_left₀ (incrementPerHertz_pos hT), minFreq_mul_incrementPerHertz hT,
    maxFreq_mul_incrementPerHertz hT]
  norm_num

theorem minPeriod_lt_maxPeriod : minPeriod T < maxPeriod T :=
  one_div_lt_one_div_of_lt (minFreq_pos hT) (minFreq_lt_maxFreq hT)

end

/-- Settles O23: the products with M are those of the two bounds, and 1 < 2^23 keeps them apart. -/
theorem converterConstants : Obligations.ConverterConstants := by
  refine ⟨by norm_num [incrementPerHertz_eq], fun T ⟨hT, _⟩ => ?_⟩
  exact ⟨incrementPerHertz_eq T, by norm_num [maxFreq, countsPerPeriod], maxFreq_eq T, maxFreq_mul_incrementPerHertz hT,
    minFreq_eq T, minFreq_mul_incrementPerHertz hT, rfl, maxPeriod_eq T, rfl, minPeriod_eq T,
    incrementPerHertz_div_maxPeriod hT, incrementPerHertz_div_minPeriod hT, minFreq_lt_maxFreq hT,
    minPeriod_lt_maxPeriod hT⟩

/-- Each constant is far inside the range of the rounding. -/
theorem constants_mem_range {T : Nat} (h : LegalTick T) :
    ∀ q ∈ [minFreq T, maxFreq T, minPeriod T, maxPeriod T], pow2 (-126) ≤ q ∧ q ≤ (2 ^ 24 - 1) * 2 ^ 104 := by
  obtain ⟨hT, hT'⟩ := h
  have hlo : (1 : ℚ) ≤ T := by exact_mod_cast hT
  have hhi : (T : ℚ) ≤ 2 ^ 32 := by exact_mod_cast hT'.le
  have hrange : (1 / 2 ^ 60 : ℚ) ≤ minFreq T ∧ maxFreq T ≤ 500 ∧ 1 / 500 ≤ minPeriod T ∧ maxPeriod T ≤ 2 ^ 60 := by
    refine ⟨?_, ?_, ?_, ?_⟩
    · rw [minFreq_eq, div_le_div_iff₀ (by positivity) (by positivity)]
      linarith
    · rw [maxFreq_eq, div_le_iff₀ (by positivity)]
      linarith
    · rw [minPeriod_eq]
      linarith
    · rw [maxPeriod_eq, div_le_iff₀ (by norm_num)]
      linarith
  obtain ⟨h1, h2, h3, h4⟩ := hrange
  have hfreq := minFreq_lt_maxFreq hT
  have hperiod := minPeriod_lt_maxPeriod hT
  have hleast : pow2 (-126) ≤ 1 / 2 ^ 60 := by norm_num [pow2_eq_zpow]
  simp only [List.forall_mem_cons, List.not_mem_nil, false_imp_iff, implies_true, and_true]
  refine ⟨⟨?_, ?_⟩, ⟨?_, ?_⟩, ⟨?_, ?_⟩, ?_, ?_⟩ <;> linarith

/-- Settles O21: the range is that in which the rounding is a positive normal word with the error of R130. -/
theorem constantsRoundToNormals : Obligations.ConstantsRoundToNormals := by
  intro T hT q hq
  obtain ⟨hlo, hhi⟩ := constants_mem_range hT q hq
  obtain ⟨v, e, n, hround⟩ := roundF32_roundsTo hlo hhi
  obtain ⟨hsign, hexp, hexp'⟩ := hround.normal
  refine ⟨pow2_eq_zpow (-126) ▸ hlo, hhi.trans_lt (by norm_num), hexp, hexp', hsign, v, hround.decode, ?_⟩
  exact pow2_eq_zpow (-24) ▸ hround.relative_error

/-! ### The clamp (R126) -/

theorem clamp_of_le {q lo hi : ℚ} (h : q ≤ lo) : clamp (.real q) lo hi = some lo := by
  rw [clamp, if_pos h]

theorem clamp_of_ge {q lo hi : ℚ} (hlt : lo < hi) (h : hi ≤ q) : clamp (.real q) lo hi = some hi := by
  rw [clamp, if_neg (hlt.trans_le h).not_ge, if_pos h]

theorem clamp_of_mem {q lo hi : ℚ} (hlo : lo ≤ q) (hhi : q ≤ hi) : clamp (.real q) lo hi = some q := by
  rw [clamp_real_eq (hlo.trans hhi), min_eq_left hhi, max_eq_right hlo]

/-- Settles O24: the infinities and NaN by definition, a real by where it lies. -/
theorem clampOnExtendedReals : Obligations.ClampOnExtendedReals :=
  fun _ _ hlt => ⟨rfl, rfl, rfl, fun _ => ⟨clamp_of_le, clamp_of_ge hlt, clamp_of_mem⟩⟩

/-- Clamping moves a value no farther from one inside the bounds. -/
theorem abs_clamp_sub_le {p v c lo hi : ℚ} (hlo : lo ≤ p) (hhi : p ≤ hi) (h : clamp (.real v) lo hi = some c) :
    |c - p| ≤ |v - p| := by
  rw [clamp_real_eq (hlo.trans hhi), Option.some.injEq] at h
  calc |c - p| = |max lo (min v hi) - max lo (min p hi)| := by rw [h, min_eq_left hhi, max_eq_right hlo]
    _ ≤ |min v hi - min p hi| := by
      rw [max_comm lo, max_comm lo]
      exact abs_max_sub_max_le_abs _ _ _
    _ ≤ max |v - p| |hi - hi| := abs_min_sub_min_le_max _ _ _ _
    _ = |v - p| := by simp

/-! ### The counts before truncation (R127, R128) -/

theorem incrementForFrequency_eq_floor {T : Nat} {x : Ext} {fc : ℚ} (h : clamp x (minFreq T) (maxFreq T) = some fc) :
    incrementForFrequency T x = ⌊fc * incrementPerHertz T⌋₊ :=
  (incrementForFrequency_of_clamp h).trans (Int.floor_toNat _)

theorem incrementForPeriod_eq_floor {T : Nat} {x : Ext} {pc : ℚ} (h : clamp x (minPeriod T) (maxPeriod T) = some pc) :
    incrementForPeriod T x = ⌊incrementPerHertz T / pc⌋₊ :=
  (incrementForPeriod_of_clamp h).trans (Int.floor_toNat _)

section

variable {T : Nat} (hT : 1 ≤ T)
include hT

theorem frequency_counts_mem {x : Ext} {fc : ℚ} (h : clamp x (minFreq T) (maxFreq T) = some fc) :
    1 ≤ fc * incrementPerHertz T ∧ fc * incrementPerHertz T ≤ 2 ^ 23 := by
  obtain ⟨hlo, hhi⟩ := clamp_mem (minFreq_lt_maxFreq hT).le h
  rw [← minFreq_mul_incrementPerHertz hT, ← maxFreq_mul_incrementPerHertz hT]
  have hM := (incrementPerHertz_pos hT).le
  exact ⟨mul_le_mul_of_nonneg_right hlo hM, mul_le_mul_of_nonneg_right hhi hM⟩

theorem period_counts_mem {x : Ext} {pc : ℚ} (h : clamp x (minPeriod T) (maxPeriod T) = some pc) :
    1 ≤ incrementPerHertz T / pc ∧ incrementPerHertz T / pc ≤ 2 ^ 23 := by
  obtain ⟨hlo, hhi⟩ := clamp_mem (minPeriod_lt_maxPeriod hT).le h
  rw [← incrementPerHertz_div_maxPeriod hT, ← incrementPerHertz_div_minPeriod hT]
  have hM := (incrementPerHertz_pos hT).le
  have hpc := (minPeriod_pos hT).trans_le hlo
  exact ⟨div_le_div_of_nonneg_left hM hpc hhi, div_le_div_of_nonneg_left hM (minPeriod_pos hT) hlo⟩

/-- The counts are positive, so truncation is the floor (R127). -/
theorem incrementForFrequency_cast {x : Ext} {fc : ℚ} (h : clamp x (minFreq T) (maxFreq T) = some fc) :
    (incrementForFrequency T x : Int) = ⌊fc * incrementPerHertz T⌋ := by
  rw [incrementForFrequency_eq_floor h]
  exact Int.natCast_floor_eq_floor (zero_le_one.trans (frequency_counts_mem hT h).1)

/-- The counts are positive, so truncation is the floor (R128). -/
theorem incrementForPeriod_cast {x : Ext} {pc : ℚ} (h : clamp x (minPeriod T) (maxPeriod T) = some pc) :
    (incrementForPeriod T x : Int) = ⌊incrementPerHertz T / pc⌋ := by
  rw [incrementForPeriod_eq_floor h]
  exact Int.natCast_floor_eq_floor (zero_le_one.trans (period_counts_mem hT h).1)

theorem incrementForFrequency_of_clamp_min {x : Ext} (h : clamp x (minFreq T) (maxFreq T) = some (minFreq T)) :
    incrementForFrequency T x = 1 := by
  rw [incrementForFrequency_eq_floor h, minFreq_mul_incrementPerHertz hT, Nat.floor_one]

theorem incrementForFrequency_of_clamp_max {x : Ext} (h : clamp x (minFreq T) (maxFreq T) = some (maxFreq T)) :
    incrementForFrequency T x = 2 ^ 23 := by
  rw [incrementForFrequency_eq_floor h, maxFreq_mul_incrementPerHertz hT]
  exact Nat.floor_natCast (2 ^ 23)

theorem incrementForPeriod_of_clamp_min {x : Ext} (h : clamp x (minPeriod T) (maxPeriod T) = some (minPeriod T)) :
    incrementForPeriod T x = 2 ^ 23 := by
  rw [incrementForPeriod_eq_floor h, incrementPerHertz_div_minPeriod hT]
  exact Nat.floor_natCast (2 ^ 23)

theorem incrementForPeriod_of_clamp_max {x : Ext} (h : clamp x (minPeriod T) (maxPeriod T) = some (maxPeriod T)) :
    incrementForPeriod T x = 1 := by
  rw [incrementForPeriod_eq_floor h, incrementPerHertz_div_maxPeriod hT, Nat.floor_one]

end

/-- Settles O25: the clamp of a real is `max` and `min` of the bounds in closed form. -/
theorem frequencyToIncrement : Obligations.FrequencyToIncrement := by
  rintro T b ⟨hT, -⟩
  refine ⟨fun hb => ?nan, fun hb => ?negInf, fun hb => ?posInf, fun q hb => ?real⟩ <;> rw [operandF, hb]
  case nan => rfl
  case negInf => exact incrementForFrequency_of_clamp_min hT rfl
  case posInf => exact incrementForFrequency_of_clamp_max hT rfl
  case real =>
    rw [incrementForFrequency_cast hT (clamp_real_eq (minFreq_lt_maxFreq hT).le), minFreq_eq, maxFreq_eq,
      incrementPerHertz_eq]

/-- Settles O26: the clamp of a real is `max` and `min` of the bounds in closed form. -/
theorem periodToIncrement : Obligations.PeriodToIncrement := by
  rintro T b ⟨hT, -⟩
  refine ⟨fun hb => ?nan, fun hb => ?negInf, fun hb => ?posInf, fun q hb => ?real⟩ <;> rw [operandF, hb]
  case nan => rfl
  case negInf => exact incrementForPeriod_of_clamp_min hT rfl
  case posInf => exact incrementForPeriod_of_clamp_max hT rfl
  case real =>
    rw [incrementForPeriod_cast hT (clamp_real_eq (minPeriod_lt_maxPeriod hT).le), minPeriod_eq, maxPeriod_eq,
      incrementPerHertz_eq]

/-! ### Range and order (R129) -/

/-- Only NaN has no clamped value. -/
theorem clamp_eq_none_or_some (x : Ext) (lo hi : ℚ) : x = .nan ∨ ∃ c, clamp x lo hi = some c := by
  cases x with
  | nan => exact .inl rfl
  | negInf | posInf | real => exact .inr ⟨_, rfl⟩

theorem floor_mem_of_mem {a : ℚ} (h : 1 ≤ a ∧ a ≤ 2 ^ 23) : 1 ≤ ⌊a⌋₊ ∧ ⌊a⌋₊ ≤ 2 ^ 23 :=
  ⟨Nat.le_floor (by exact_mod_cast h.1), Nat.floor_le_of_le (by exact_mod_cast h.2)⟩

/-- Truncation loses less than one count. -/
theorem sub_floor_mem {a : ℚ} (ha : 1 ≤ a) : 0 ≤ a - (⌊a⌋₊ : ℚ) ∧ a - (⌊a⌋₊ : ℚ) < 1 :=
  ⟨sub_nonneg.mpr (Nat.floor_le (zero_le_one.trans ha)), sub_lt_iff_lt_add'.mpr (Nat.lt_floor_add_one a)⟩

section

variable {T : Nat} (hT : 1 ≤ T)
include hT

theorem incrementForFrequency_mem (x : Ext) : 1 ≤ incrementForFrequency T x ∧ incrementForFrequency T x ≤ 2 ^ 23 := by
  obtain rfl | ⟨c, hc⟩ := clamp_eq_none_or_some x (minFreq T) (maxFreq T)
  · exact ⟨le_rfl, Nat.one_le_two_pow⟩
  · rw [incrementForFrequency_eq_floor hc]
    exact floor_mem_of_mem (frequency_counts_mem hT hc)

theorem incrementForPeriod_mem (x : Ext) : 1 ≤ incrementForPeriod T x ∧ incrementForPeriod T x ≤ 2 ^ 23 := by
  obtain rfl | ⟨c, hc⟩ := clamp_eq_none_or_some x (minPeriod T) (maxPeriod T)
  · exact ⟨le_rfl, Nat.one_le_two_pow⟩
  · rw [incrementForPeriod_eq_floor hc]
    exact floor_mem_of_mem (period_counts_mem hT hc)

theorem incrementForFrequency_mono {q q' : ℚ} (h : q ≤ q') :
    incrementForFrequency T (.real q) ≤ incrementForFrequency T (.real q') := by
  have hle := (minFreq_lt_maxFreq hT).le
  rw [incrementForFrequency_eq_floor (clamp_real_eq hle), incrementForFrequency_eq_floor (clamp_real_eq hle)]
  refine Nat.floor_mono (mul_le_mul_of_nonneg_right ?_ (incrementPerHertz_pos hT).le)
  exact max_le_max_left _ (min_le_min_right _ h)

theorem incrementForPeriod_anti {q q' : ℚ} (h : q ≤ q') :
    incrementForPeriod T (.real q') ≤ incrementForPeriod T (.real q) := by
  have hle := (minPeriod_lt_maxPeriod hT).le
  rw [incrementForPeriod_eq_floor (clamp_real_eq hle), incrementForPeriod_eq_floor (clamp_real_eq hle)]
  refine Nat.floor_mono (div_le_div_of_nonneg_left (incrementPerHertz_pos hT).le ?_ ?_)
  · exact (minPeriod_pos hT).trans_le (le_max_left _ _)
  · exact max_le_max_left _ (min_le_min_right _ h)

end

/-- Settles O27: the infinities give the two ends of the range, between which every real is. -/
theorem conversionRangeAndOrder : Obligations.ConversionRangeAndOrder := by
  rintro T ⟨hT, -⟩
  have hfreq := minFreq_lt_maxFreq hT
  refine ⟨fun b => ?range, ?max, ?min, fun q q' hq => ?order, fun x fc hfc => ?freqLoss, fun x pc hpc => ?periodLoss⟩
  case range =>
    obtain ⟨hf, hf'⟩ := incrementForFrequency_mem hT (f32Decode b)
    exact ⟨hf, hf', incrementForPeriod_mem hT _⟩
  case max => exact incrementForFrequency_of_clamp_max hT (clamp_of_ge hfreq le_rfl)
  case min => exact incrementForFrequency_of_clamp_min hT (clamp_of_le le_rfl)
  case order =>
    rw [incrementForFrequency_of_clamp_min hT (x := .negInf) rfl,
      incrementForFrequency_of_clamp_max hT (x := .posInf) rfl,
      incrementForPeriod_of_clamp_min hT (x := .negInf) rfl, incrementForPeriod_of_clamp_max hT (x := .posInf) rfl]
    exact ⟨(incrementForFrequency_mem hT _).1, incrementForFrequency_mono hT hq, (incrementForFrequency_mem hT _).2,
      (incrementForPeriod_mem hT _).1, incrementForPeriod_anti hT hq, (incrementForPeriod_mem hT _).2⟩
  case freqLoss =>
    rw [incrementForFrequency_eq_floor hfc]
    exact sub_floor_mem (frequency_counts_mem hT hfc).1
  case periodLoss =>
    rw [incrementForPeriod_eq_floor hpc]
    exact sub_floor_mem (period_counts_mem hT hpc).1

/-! ### The inverse law (R130) -/

/-- Numbers less than 1 apart have floors at most 1 apart. -/
theorem floor_le_floor_succ {a t : ℚ} (ha : 0 ≤ a) (h : |a - t| < 1) : ⌊t⌋₊ ≤ ⌊a⌋₊ + 1 := by
  rw [← Nat.floor_add_one ha]
  exact Nat.floor_mono (by linarith [(abs_lt.mp h).1])

/-- A period at a relative distance of at most 2^-24 moves at most 2^23 counts by at most half a count. -/
theorem abs_div_sub_div_lt_one {M p c : ℚ} (hp : 0 < p) (hc : 0 < c) (hcount : M / c ≤ 2 ^ 23) (hM : 0 ≤ M / c)
    (h : |c - p| ≤ p * pow2 (-24)) : |M / c - M / p| < 1 := by
  have hdiff : M / c - M / p = M / c * ((p - c) / p) := by field_simp
  have hrel : |(p - c) / p| ≤ pow2 (-24) := by
    rwa [abs_div, abs_of_pos hp, div_le_iff₀ hp, abs_sub_comm, mul_comm]
  calc |M / c - M / p| = M / c * |(p - c) / p| := by rw [hdiff, abs_mul, abs_of_nonneg hM]
    _ ≤ 2 ^ 23 * pow2 (-24) := mul_le_mul hcount hrel (abs_nonneg _) (by positivity)
    _ < 1 := by norm_num [pow2_eq_zpow]

theorem one_div_mem_periods {T : Nat} (hT : 1 ≤ T) {f : ℚ} (hlo : minFreq T ≤ f) (hhi : f ≤ maxFreq T) :
    minPeriod T ≤ 1 / f ∧ 1 / f ≤ maxPeriod T :=
  ⟨one_div_le_one_div_of_le ((minFreq_pos hT).trans_le hlo) hhi, one_div_le_one_div_of_le (minFreq_pos hT) hlo⟩

/-- The period of a frequency inside the bounds is rounded inside the range of R121. -/
theorem one_div_roundsTo {T : Nat} (h : LegalTick T) {f : ℚ} (hlo : minFreq T ≤ f) (hhi : f ≤ maxFreq T) :
    ∃ v e n, RoundsTo (1 / f) (roundF32 (1 / f)) v e n := by
  obtain ⟨hp, hp'⟩ := one_div_mem_periods h.1 hlo hhi
  have hmin := (constants_mem_range h (minPeriod T) (by simp)).1
  have hmax := (constants_mem_range h (maxPeriod T) (by simp)).2
  exact roundF32_roundsTo (hmin.trans hp) (hp'.trans hmax)

/-- Settles O28: the two counts before truncation are f * M and M over the clamped rounded period, less than one
count apart, and the same where the period is exact. -/
theorem conversionsAreInverse : Obligations.ConversionsAreInverse := by
  intro T b f hlegal hb hlo hhi
  have hT := hlegal.1
  have hf := (minFreq_pos hT).trans_le hlo
  obtain ⟨hp, hp'⟩ := one_div_mem_periods hT hlo hhi
  obtain ⟨v, e, n, hround⟩ := one_div_roundsTo hlegal hlo hhi
  have hx : incrementForFrequency T (f32Decode b) = ⌊incrementPerHertz T / (1 / f)⌋₊ := by
    rw [hb, incrementForFrequency_eq_floor (clamp_of_mem hlo hhi), div_div_eq_mul_div, div_one, mul_comm]
  obtain ⟨c, hc⟩ : ∃ c, clamp (.real v) (minPeriod T) (maxPeriod T) = some c := ⟨_, rfl⟩
  have hy : incrementForPeriod T (f32Decode (roundF32 (1 / f))) = ⌊incrementPerHertz T / c⌋₊ := by
    rw [hround.decode, incrementForPeriod_eq_floor hc]
  have hc0 : 0 < c := (minPeriod_pos hT).trans_le (clamp_mem (minPeriod_lt_maxPeriod hT).le hc).1
  have hM := incrementPerHertz_pos hT
  have hnear : |incrementPerHertz T / c - incrementPerHertz T / (1 / f)| < 1 :=
    abs_div_sub_div_lt_one (one_div_pos.mpr hf) hc0 (period_counts_mem hT hc).2 (div_pos hM hc0).le
      ((abs_clamp_sub_le hp hp' hc).trans hround.relative_error)
  rw [hx, hy]
  refine ⟨?freqLePeriod, ?periodLeFreq, fun ⟨w, hw⟩ => ?exact⟩
  case freqLePeriod => exact floor_le_floor_succ (div_pos hM hc0).le hnear
  case periodLeFreq =>
    rw [abs_sub_comm] at hnear
    exact floor_le_floor_succ (by positivity) hnear
  case exact =>
    rw [hround.eq_of_exact hw, clamp_of_mem hp hp', Option.some.injEq] at hc
    rw [hc]

end Sys2Proof.Machine
end

section
/-! PROOFS. The commands of the converter (42_frequency_converter.md R131 to R138), and the drift over one period
(R139). -/

namespace Sys2Proof.Machine

/-! ### Increments as words (R127, R128) -/

theorem config_one_le_tick (c : Config) : 1 ≤ c.tickPeriodMs := (config_valid c).1.1

theorem iff_eq (s : State) (arg : Word) : s.iff arg = incrementForFrequency s.cfg.tickPeriodMs (f32Decode arg) := rfl

theorem ifp_eq (s : State) (arg : Word) : s.ifp arg = incrementForPeriod s.cfg.tickPeriodMs (f32Decode arg) := rfl

theorem iff_le (s : State) (arg : Word) : s.iff arg ≤ 2 ^ 23 := (incrementForFrequency_mem (config_one_le_tick _) _).2

theorem ifp_le (s : State) (arg : Word) : s.ifp arg ≤ 2 ^ 23 := (incrementForPeriod_mem (config_one_le_tick _) _).2

/-- An increment fits INC and DATA. -/
theorem ofNat_toNat_of_le {w n : Nat} (hw : 24 ≤ w) (hn : n ≤ 2 ^ 23) : (BitVec.ofNat w n).toNat = n := by
  have hlt : 2 ^ 23 < 2 ^ w := Nat.pow_lt_pow_right (by norm_num) (by omega)
  rw [BitVec.toNat_ofNat, Nat.mod_eq_of_lt (by omega)]

section

variable {T : Nat} (hT : 1 ≤ T) {x : Ext}
include hT

/-- A frequency that does not exceed MIN_FREQ, or is none, gives 1 (R131). -/
theorem incrementForFrequency_low (h : x = .nan ∨ x = .negInf ∨ ∃ q, x = .real q ∧ q ≤ minFreq T) :
    incrementForFrequency T x = 1 := by
  rcases h with rfl | rfl | ⟨q, rfl, hq⟩
  · rfl
  · exact incrementForFrequency_of_clamp_min hT rfl
  · exact incrementForFrequency_of_clamp_min hT (clamp_of_le hq)

/-- A frequency of at least MAX_FREQ gives half a period per tick (R131). -/
theorem incrementForFrequency_high (h : x = .posInf ∨ ∃ q, x = .real q ∧ maxFreq T ≤ q) :
    incrementForFrequency T x = 2 ^ 23 := by
  rcases h with rfl | ⟨q, rfl, hq⟩
  · exact incrementForFrequency_of_clamp_max hT rfl
  · exact incrementForFrequency_of_clamp_max hT (clamp_of_ge (minFreq_lt_maxFreq hT) hq)

/-- A period that does not exceed MIN_PERIOD gives half a period per tick (R132). -/
theorem incrementForPeriod_low (h : x = .negInf ∨ ∃ q, x = .real q ∧ q ≤ minPeriod T) :
    incrementForPeriod T x = 2 ^ 23 := by
  rcases h with rfl | ⟨q, rfl, hq⟩
  · exact incrementForPeriod_of_clamp_min hT rfl
  · exact incrementForPeriod_of_clamp_min hT (clamp_of_le hq)

/-- A period of at least MAX_PERIOD, or none, gives 1 (R132). -/
theorem incrementForPeriod_high (h : x = .nan ∨ x = .posInf ∨ ∃ q, x = .real q ∧ maxPeriod T ≤ q) :
    incrementForPeriod T x = 1 := by
  rcases h with rfl | rfl | ⟨q, rfl, hq⟩
  · rfl
  · exact incrementForPeriod_of_clamp_max hT rfl
  · exact incrementForPeriod_of_clamp_max hT (clamp_of_ge (minPeriod_lt_maxPeriod hT) hq)

end

/-! ### Answers of the family (R131, R132, R135 to R138) -/

/-- A command that answers `d` where the converter is there and IllegalCommand where it is not. -/
theorem onlyAnswers_or_onlyIllegal {i : Instr} {s : State} {d : Word}
    (h : exec i s = .next (if s.cfg.variant.hasFreqConv then s.respond false d else s.respond true 0)) :
    (s.cfg.variant.hasFreqConv = true → ∃ t, exec i s = .next t ∧ OnlyAnswers s t d.toNat) ∧
    (s.cfg.variant.hasFreqConv = false → ∃ t, exec i s = .next t ∧ OnlyIllegal s t) := by
  refine ⟨fun hconv => ⟨_, by rw [h, if_pos hconv], onlyAnswers_respond s d⟩, fun hconv => ?absent⟩
  case absent => exact ⟨_, by rw [h, hconv, if_neg Bool.false_ne_true], onlyIllegal_respond s⟩

theorem Answered.of_eq {s t : State} {e : Bool} {d d' : Nat} (h : Answered s t e d) (hd : d = d') :
    Answered s t e d' := hd ▸ h

/-- Settles O29: the answer is the increment, which is 1 or 2^23 at the ends of the clamp. -/
theorem convFreqAnswersIncrement : Obligations.ConvFreqAnswersIncrement := by
  refine ⟨wordsDecodeTo_of_row (fun _ => rfl) (fun _ => rfl), fun arg s => ?_⟩
  obtain ⟨hpresent, habsent⟩ := onlyAnswers_or_onlyIllegal (exec_convFreq arg s)
  rw [ofNat_toNat_of_le (by norm_num) (iff_le s arg), iff_eq] at hpresent
  refine ⟨fun hconv => ?_, habsent⟩
  obtain ⟨t, hexec, honly⟩ := hpresent hconv
  have ⟨_, _, hanswered⟩ := honly
  have hT := config_one_le_tick s.cfg
  exact ⟨t, hexec, honly, fun hlow => hanswered.of_eq (incrementForFrequency_low hT hlow),
    fun hhigh => hanswered.of_eq (incrementForFrequency_high hT hhigh)⟩

/-- Settles O30: the answer is the increment, which is 2^23 or 1 at the ends of the clamp. -/
theorem convPeriodAnswersIncrement : Obligations.ConvPeriodAnswersIncrement := by
  refine ⟨wordsDecodeTo_of_row (fun _ => rfl) (fun _ => rfl), fun arg s => ?_⟩
  obtain ⟨hpresent, habsent⟩ := onlyAnswers_or_onlyIllegal (exec_convPeriod arg s)
  rw [ofNat_toNat_of_le (by norm_num) (ifp_le s arg), ifp_eq] at hpresent
  refine ⟨fun hconv => ?_, habsent⟩
  obtain ⟨t, hexec, honly⟩ := hpresent hconv
  have ⟨_, _, hanswered⟩ := honly
  have hT := config_one_le_tick s.cfg
  exact ⟨t, hexec, honly, fun hlow => hanswered.of_eq (incrementForPeriod_low hT hlow),
    fun hhigh => hanswered.of_eq (incrementForPeriod_high hT hhigh)⟩

/-! ### The answers at fixed tick periods (R135 to R138) -/

/-- The value of a positive normal word, its exponent and significand written out. -/
theorem f32Decode_of_packed {b : Word} (e n : Int) (hb : b = packF32 e n)
    (h : -126 ≤ e ∧ e ≤ 127 ∧ 2 ^ 23 ≤ n ∧ n < 2 ^ 24) : f32Decode b = .real (n * (2 : ℚ) ^ (e - 23)) := by
  obtain ⟨he, he', hn, hn'⟩ := h
  rw [hb, f32Decode_packF32 he he' hn hn', pow2_eq_zpow]

/-- The word that a constant rounds to, its exponent and significand written out. -/
theorem roundF32_eq_of_packed {q : ℚ} {b : Word} (e n : Int) (hb : b = packF32 e n) (hn : n < 2 ^ 24)
    (hle : (2 : ℚ) ^ e ≤ q) (hlt : q < (2 : ℚ) ^ (e + 1)) (hnear : |(n : ℚ) - q / (2 : ℚ) ^ (e - 23)| < 1 / 2) :
    roundF32 q = b := by
  simp only [← pow2_eq_zpow] at hle hlt hnear
  rw [hb, roundF32_eq_packF32 hle hlt hn hnear]

theorem f32Decode_minFreq_one : f32Decode 0x387A0000 = .real (minFreq 1) := by
  rw [f32Decode_of_packed (-15) 0xFA0000 (by decide) (by norm_num), minFreq_eq]
  norm_num

theorem f32Decode_maxFreq_one : f32Decode 0x43FA0000 = .real (maxFreq 1) := by
  rw [f32Decode_of_packed 8 0xFA0000 (by decide) (by norm_num), maxFreq_eq]
  norm_num

theorem roundF32_maxFreq_three : roundF32 (maxFreq 3) = 0x4326AAAB := by
  rw [maxFreq_eq]
  apply roundF32_eq_of_packed 7 0xA6AAAB (by decide) <;> norm_num [abs_lt]

theorem roundF32_maxFreq_eleven : roundF32 (maxFreq 11) = 0x4235D174 := by
  rw [maxFreq_eq]
  apply roundF32_eq_of_packed 5 0xB5D174 (by decide) <;> norm_num [abs_lt]

theorem roundF32_minPeriod_one : roundF32 (minPeriod 1) = 0x3B03126F := by
  rw [minPeriod_eq]
  apply roundF32_eq_of_packed (-9) 0x83126F (by decide) <;> norm_num [abs_lt]

theorem roundF32_maxPeriod_one : roundF32 (maxPeriod 1) = 0x4683126F := by
  rw [maxPeriod_eq]
  apply roundF32_eq_of_packed 14 0x83126F (by decide) <;> norm_num [abs_lt]

/-- At T = 3 the answer lies above MAX_FREQ. -/
theorem increment_rounded_maxFreq_three : incrementForFrequency 3 (f32Decode 0x4326AAAB) = 2 ^ 23 := by
  refine incrementForFrequency_high (by norm_num)
    (.inr ⟨_, f32Decode_of_packed 7 0xA6AAAB (by decide) (by norm_num), ?_⟩)
  norm_num [maxFreq_eq]

/-- At T = 11 the answer lies below MAX_FREQ, and its counts below 2^23. -/
theorem increment_rounded_maxFreq_eleven : incrementForFrequency 11 (f32Decode 0x4235D174) = 8388607 := by
  rw [f32Decode_of_packed 5 0xB5D174 (by decide) (by norm_num),
    incrementForFrequency_eq_floor (clamp_of_mem (by norm_num [minFreq_eq]) (by norm_num [maxFreq_eq])),
    incrementPerHertz_eq, Nat.floor_eq_iff (by positivity)]
  norm_num

/-- At T = 1 the answer lies above MIN_PERIOD, and its counts below 2^23. -/
theorem increment_rounded_minPeriod_one : incrementForPeriod 1 (f32Decode 0x3B03126F) = 8388607 := by
  rw [f32Decode_of_packed (-9) 0x83126F (by decide) (by norm_num),
    incrementForPeriod_eq_floor (clamp_of_mem (by norm_num [minPeriod_eq]) (by norm_num [maxPeriod_eq])),
    incrementPerHertz_eq, Nat.floor_eq_iff (by positivity)]
  norm_num

/-- At T = 1 the answer lies above MAX_PERIOD. -/
theorem increment_rounded_maxPeriod_one : incrementForPeriod 1 (f32Decode 0x4683126F) = 1 := by
  refine incrementForPeriod_high le_rfl
    (.inr (.inr ⟨_, f32Decode_of_packed 14 0x83126F (by decide) (by norm_num), ?_⟩))
  norm_num [maxPeriod_eq]

/-- Settles O33: at T = 1 the constant is the value of a normal word, so that word is its rounding. -/
theorem getMinFreqAnswersConstant : Obligations.GetMinFreqAnswersConstant :=
  ⟨wordsDecodeTo_of_row (fun _ => rfl) (fun _ => rfl), f32Decode_minFreq_one,
    roundInvertsDecode _ _ (by decide) (by decide) (by decide) f32Decode_minFreq_one,
    fun s => onlyAnswers_or_onlyIllegal (exec_getMinFreq s)⟩

/-- Settles O34: exact at T = 1, rounded up at T = 3 and down at T = 11. -/
theorem getMaxFreqAnswersConstant : Obligations.GetMaxFreqAnswersConstant :=
  ⟨wordsDecodeTo_of_row (fun _ => rfl) (fun _ => rfl),
    roundInvertsDecode _ _ (by decide) (by decide) (by decide) f32Decode_maxFreq_one,
    roundF32_maxFreq_three, increment_rounded_maxFreq_three,
    roundF32_maxFreq_eleven, increment_rounded_maxFreq_eleven,
    fun s => onlyAnswers_or_onlyIllegal (exec_getMaxFreq s)⟩

/-- Settles O35: rounded up at T = 1. -/
theorem getMinPeriodAnswersConstant : Obligations.GetMinPeriodAnswersConstant :=
  ⟨wordsDecodeTo_of_row (fun _ => rfl) (fun _ => rfl), roundF32_minPeriod_one, increment_rounded_minPeriod_one,
    fun s => onlyAnswers_or_onlyIllegal (exec_getMinPeriod s)⟩

/-- Settles O36: rounded up at T = 1. -/
theorem getMaxPeriodAnswersConstant : Obligations.GetMaxPeriodAnswersConstant :=
  ⟨wordsDecodeTo_of_row (fun _ => rfl) (fun _ => rfl), roundF32_maxPeriod_one, increment_rounded_maxPeriod_one,
    fun s => onlyAnswers_or_onlyIllegal (exec_getMaxPeriod s)⟩

/-! ### The commands that write INC (R133, R134) -/

/-- A command that writes `v` to INC where the converter is there and answers IllegalCommand where it is not. -/
theorem writesInc_or_onlyIllegal {i : Instr} {s : State} {v : Phase}
    (h : exec i s =
      .next (if s.cfg.variant.hasFreqConv then (s.writeInc v).respond false 0 else s.respond true 0)) :
    (s.cfg.variant.hasFreqConv = true → exec i s = .next ((s.writeInc v).respond false 0)) ∧
    (s.cfg.variant.hasFreqConv = false → ∃ t, exec i s = .next t ∧ OnlyIllegal s t) := by
  refine ⟨fun hconv => by rw [h, if_pos hconv], fun hconv => ⟨_, ?_, onlyIllegal_respond s⟩⟩
  rw [h, hconv, if_neg Bool.false_ne_true]

theorem exec_setFreq_of_present {s : State} (h : s.cfg.variant.hasFreqConv = true) (arg : Word) :
    exec (.setFreq arg) s = .next ((s.writeInc (BitVec.ofNat 24 (s.iff arg))).respond false 0) :=
  (writesInc_or_onlyIllegal (exec_setFreq arg s)).1 h

theorem exec_setPeriod_of_present {s : State} (h : s.cfg.variant.hasFreqConv = true) (arg : Word) :
    exec (.setPeriod arg) s = .next ((s.writeInc (BitVec.ofNat 24 (s.ifp arg))).respond false 0) :=
  (writesInc_or_onlyIllegal (exec_setPeriod arg s)).1 h

theorem words_setFreq : WordsDecodeTo 0x22 .freqConv .setFreq := wordsDecodeTo_of_row (fun _ => rfl) (fun _ => rfl)

/-- Settles O31: the increment fits INC, the one register written. -/
theorem setFreqStoresIncrement : Obligations.SetFreqStoresIncrement := by
  refine ⟨words_setFreq, fun arg s => ⟨fun hconv => ?_, (writesInc_or_onlyIllegal (exec_setFreq arg s)).2⟩⟩
  exact ⟨_, exec_setFreq_of_present hconv arg, ofNat_toNat_of_le le_rfl (iff_le s arg), rfl, rfl,
    (sameOutside_writeInc s _).respond _ _, answered_respond rfl false 0⟩

/-- Settles O32: the increment fits INC, the one register written; a period of 0 is below MIN_PERIOD. -/
theorem setPeriodStoresIncrement : Obligations.SetPeriodStoresIncrement := by
  refine ⟨wordsDecodeTo_of_row (fun _ => rfl) (fun _ => rfl), fun arg s =>
    ⟨fun hconv => ?_, (writesInc_or_onlyIllegal (exec_setPeriod arg s)).2⟩⟩
  have hinc := ofNat_toNat_of_le le_rfl (ifp_le s arg)
  have hT := config_one_le_tick s.cfg
  exact ⟨_, exec_setPeriod_of_present hconv arg, hinc,
    fun hzero => hinc.trans (incrementForPeriod_low hT (.inr ⟨0, hzero, (minPeriod_pos hT).le⟩)), rfl, rfl,
    (sameOutside_writeInc s _).respond _ _, answered_respond rfl false 0⟩

/-! ### Drift over one period (R139) -/

/-- SET_FREQ as the next of the inputs delivered: INC is the increment, and the others are still to come. -/
theorem step_deliver_setFreq {s : State} (h : s.cfg.variant.hasFreqConv = true) (b : Word) (es : List Input) :
    ∃ t : State, step (s.deliver (.command (mkWord 0x22 b) :: es)) = .next (t.deliver es) ∧
      t.cnt = s.cnt ∧ t.inc.toNat = s.iff b :=
  ⟨((s.record (mkWord 0x22 b)).writeInc (BitVec.ofNat 24 (s.iff b))).respond false 0,
    (step_deliver_command_ok es (words_setFreq _ b h)).trans
      (exec_setFreq_of_present (s := (s.deliver es).record (mkWord 0x22 b)) h b), rfl,
    ofNat_toNat_of_le le_rfl (iff_le s b)⟩

theorem runFor_deliver_tickEvents (N : Nat) (s : State) :
    ∃ t, runFor N (s.deliver (List.replicate N .tick)) = .next t ∧ Ticked s t N N := by
  have h := runFor_deliver_ticks (List.replicate N .tick) s fun e he => by rw [List.eq_of_mem_replicate he]; rfl
  rwa [List.length_replicate, List.count_replicate_self] at h

/-- Where N counts of the untruncated increment make up a period, those of the truncated one miss it by less than
N. -/
theorem mul_floor_mem {a : ℚ} {N P : Nat} (hN : 0 < N) (ha : 0 ≤ a) (hperiod : N * a = P) :
    P < N * ⌊a⌋₊ + N ∧ N * ⌊a⌋₊ ≤ P := by
  have hN' : (0 : ℚ) < N := by exact_mod_cast hN
  have hlt : (P : ℚ) < N * ⌊a⌋₊ + N := by
    calc (P : ℚ) = N * a := hperiod.symm
      _ < N * (⌊a⌋₊ + 1) := mul_lt_mul_of_pos_left (Nat.lt_floor_add_one a) hN'
      _ = N * ⌊a⌋₊ + N := by ring
  have hle : (N * ⌊a⌋₊ : ℚ) ≤ P := hperiod ▸ mul_le_mul_of_nonneg_left (Nat.floor_le ha) hN'.le
  exact ⟨by exact_mod_cast hlt, by exact_mod_cast hle⟩

/-- Settles O37: N ticks of the untruncated increment f * M make 2^24 counts. -/
theorem driftOverOnePeriod : Obligations.DriftOverOnePeriod := by
  intro s b f N hconv hb hlo hhi hN
  have hT := config_one_le_tick s.cfg
  have hf := (minFreq_pos hT).trans_le hlo
  have hT0 : (0 : ℚ) < s.cfg.tickPeriodMs := by exact_mod_cast hT
  have hNpos : 0 < N := by
    have : (0 : ℚ) < N := by rw [hN]; positivity
    exact_mod_cast this
  have hperiod : N * (f * incrementPerHertz s.cfg.tickPeriodMs) = (2 ^ 24 : Nat) := by
    rw [hN, incrementPerHertz_eq]
    field_simp
    norm_num
  obtain ⟨u, hset, hcnt, hinc⟩ := step_deliver_setFreq hconv b (List.replicate N .tick)
  obtain ⟨t, hrun, hticked⟩ := runFor_deliver_tickEvents N u
  have htinc : t.inc.toNat = s.iff b := by rw [hticked.inc, hinc]
  refine ⟨t, (runFor_succ hset).trans hrun, htinc, ?phase, ?drift⟩
  case phase => rw [hticked.cnt, hcnt, hticked.inc]
  case drift =>
    rw [htinc, iff_eq, hb, incrementForFrequency_eq_floor (clamp_of_mem hlo hhi)]
    exact mul_floor_mem hNpos (mul_pos hf (incrementPerHertz_pos hT)).le hperiod

end Sys2Proof.Machine
end

section
/-! PROOFS. The statements of 60_exceptions.md: no legal command errs (R160), and IllegalCommand, the one error
outcome (R161). -/

namespace Sys2Proof.Machine

/-- Settles O46: with SEL legal every command completes, and one that the variant has answers ERR = 0. -/
theorem legalCommandsNeverErr : Obligations.LegalCommandsNeverErr := by
  intro i s hwf hsel
  obtain ⟨t, hexec⟩ := exec_completes (i := i) fun _ => effectiveSel_le_of_sel_le hsel
  obtain ⟨d, hanswered⟩ := exec_answered_of_wf hwf hexec
  exact ⟨d, t, hexec, hanswered⟩

/-- The step that takes an illegal word: the word goes on record and IllegalCommand answers it. -/
theorem step_command_error {s : State} {w : CmdWord} {rest : List Input} {r : Reject}
    (hin : s.inputs = .command w :: rest) (hdec : decode s.cfg.variant w = .error r) :
    step s = .next (({ s with inputs := rest }.record w).respond true 0) := by
  rw [step_command hin, performCommand_error (s := { s with inputs := rest }) hdec]

/-- Settles O45: beyond taking and recording the word, the step does only what IllegalCommand does. -/
theorem illegalWordOnlyAnswersError : Obligations.IllegalWordOnlyAnswersError := by
  intro s w rest r hin hdec
  refine ⟨_, step_command_error hin hdec, ?_⟩
  obtain ⟨hregs, ⟨hcfg, hinputs, hissued, hmem⟩, hanswered⟩ :=
    onlyIllegal_respond ({ s with inputs := rest }.record w)
  exact ⟨hregs, hcfg, hmem, hinputs, hissued, hanswered⟩

end Sys2Proof.Machine
end

section
/-! PROOFS. The statements of 70_reset_and_hazards.md: the silence after reset (R182), the order of set-up commands
(R183), reads across a tick (R186), and the aliasing guard (R188). -/

namespace Sys2Proof.Machine

/-! ### After reset (R182) -/

/-- At phase 0 with Sine selected, the sample is entry 0 of the first table, scaled by 2^16. -/
theorem answersWith_getValue_origin {s : State} {b : Byte} (hcnt : s.cnt = 0) (hsel : s.sel = 0)
    (hb : waveEntry s.cfg 0 0 = some b) : AnswersWith .getValue s (b.toNat * 2 ^ 16) := by
  have hsine : s.effectiveSel = 0 := effectiveSel_of_sel_zero hsel
  have hentry : s.table s.effectiveSel 0 = some b := by
    rw [hsine]
    exact (table_eq_waveEntry s 0 0 (Nat.zero_le _)).trans hb
  have hsame : s.writeCnt 0 = s := by rw [← hcnt]; rfl
  have hsample := answersWith_getValue_boundary (c := 0) (by rw [hsine]; decide) rfl hentry
  rwa [hsame] at hsample

/-- Settles O49: every tick step adds INC = 0 and leaves SEL at Sine. -/
theorem resetIsSilent : Obligations.ResetIsSilent := by
  intro c es hes
  obtain ⟨t, hrun, hticked⟩ := runFor_deliver_ticks es (State.powerOn c) hes
  obtain ⟨b, hb⟩ := waveEntry_exists c 0 0 (Nat.zero_le _) (Nat.zero_le _)
  have hcnt : t.cnt.toNat = 0 := by
    rw [hticked.cnt, powerOn_cnt, powerOn_inc]
    rfl
  have hcfg : t.cfg = c := hticked.cfg
  exact ⟨t, b, hrun, hcnt, hb, answersWith_getValue_origin (BitVec.eq_of_toNat_eq hcnt) hticked.sel (hcfg ▸ hb)⟩

/-! ### Set-up commands (R183) -/

/-- Under configuration `c` the command maps CNT, INC and SEL one by one, each to a value that does not depend on
the other two. -/
def MapsRegisters (i : Instr) (c : Config) (cnt inc : Phase → Phase) (sel : Selector → Selector) : Prop :=
  ∀ s t : State, s.cfg = c → exec i s = .next t →
    t.cnt = cnt s.cnt ∧ t.inc = inc s.inc ∧ t.sel = sel s.sel

/-- Commands whose maps commute register by register may run in either order. -/
theorem MapsRegisters.sameRegisters_of_commute {i j : Instr} {s t u t' u' : State}
    {cnt cnt' inc inc' : Phase → Phase} {sel sel' : Selector → Selector}
    (hi : MapsRegisters i s.cfg cnt inc sel) (hj : MapsRegisters j s.cfg cnt' inc' sel')
    (hcnt : Function.Commute cnt' cnt) (hinc : Function.Commute inc' inc) (hsel : Function.Commute sel' sel)
    (ht : exec i s = .next t) (hu : exec j t = .next u)
    (ht' : exec j s = .next t') (hu' : exec i t' = .next u') : SameRegisters u u' := by
  obtain ⟨htcnt, htinc, htsel⟩ := hi s t rfl ht
  obtain ⟨hucnt, huinc, husel⟩ := hj t u (exec_frame ht).1 hu
  obtain ⟨htcnt', htinc', htsel'⟩ := hj s t' rfl ht'
  obtain ⟨hucnt', huinc', husel'⟩ := hi t' u' (exec_frame ht').1 hu'
  refine ⟨?cnt, ?inc, ?sel⟩
  case cnt => rw [hucnt', htcnt', hucnt, htcnt, hcnt s.cnt]
  case inc => rw [huinc', htinc', huinc, htinc, hinc s.inc]
  case sel => rw [husel', htsel', husel, htsel, hsel s.sel]

/-- A command behind an option: without it IllegalCommand keeps every register. -/
theorem mapsRegisters_of_option (p : Variant → Bool) {i : Instr} {c : Config} {out : State → State}
    {cnt inc : Phase → Phase} {sel : Selector → Selector}
    (hexec : ∀ s, exec i s = .next (if p s.cfg.variant then out s else s.respond true 0))
    (hout : ∀ s, s.cfg = c → (out s).cnt = cnt s.cnt ∧ (out s).inc = inc s.inc ∧ (out s).sel = sel s.sel) :
    MapsRegisters i c cnt inc sel ∨ MapsRegisters i c id id id := by
  by_cases hp : p c.variant = true
  · refine .inl fun s t hcfg h => ?_
    rw [hexec, hcfg, if_pos hp] at h
    cases h
    exact hout s hcfg
  · refine .inr fun s t hcfg h => ?_
    rw [hexec, hcfg, if_neg hp] at h
    cases h
    exact ⟨rfl, rfl, rfl⟩

/-- A command of the converter that writes to INC a value of the configuration. -/
theorem mapsRegisters_of_converter {i : Instr} {v : Config → Phase}
    (hexec : ∀ s, exec i s =
      .next (if s.cfg.variant.hasFreqConv then (s.writeInc (v s.cfg)).respond false 0 else s.respond true 0))
    (c : Config) : ∃ inc, MapsRegisters i c id inc id := by
  rcases mapsRegisters_of_option (c := c) (cnt := id) (inc := fun _ => v c) (sel := id) Variant.hasFreqConv hexec
      (by rintro s rfl; exact ⟨rfl, rfl, rfl⟩) with h | h
  all_goals exact ⟨_, h⟩

/-- SET_INC, SET_FREQ and SET_PERIOD touch INC alone, and what they write to it depends on the configuration only. -/
theorem mapsRegisters_of_writes_inc {i : Instr} (hop : i.opcode ∈ [0x01, 0x22, 0x23]) (c : Config) :
    ∃ inc, MapsRegisters i c id inc id := by
  cases i with
  | setInc arg =>
    refine ⟨fun _ => operandU arg, fun s t _ h => ?_⟩
    cases h
    exact ⟨rfl, rfl, rfl⟩
  | setFreq arg =>
    exact mapsRegisters_of_converter (v := fun c => .ofNat 24 (incrementForFrequency c.tickPeriodMs (operandF arg)))
      (exec_setFreq arg) c
  | setPeriod arg =>
    exact mapsRegisters_of_converter (v := fun c => .ofNat 24 (incrementForPeriod c.tickPeriodMs (operandF arg)))
      (exec_setPeriod arg) c
  | _ => exact absurd hop (by simp [Instr.opcode])

/-- SET_CNT and RESET_PHASE touch CNT alone. -/
theorem mapsRegisters_of_writes_cnt {i : Instr} (hop : i.opcode ∈ [0x03, 0x06]) (c : Config) :
    ∃ cnt, MapsRegisters i c cnt id id := by
  cases i with
  | setCnt arg =>
    refine ⟨fun _ => operandU arg, fun s t _ h => ?_⟩
    cases h
    exact ⟨rfl, rfl, rfl⟩
  | resetPhase =>
    refine ⟨fun _ => 0, fun s t _ h => ?_⟩
    cases h
    exact ⟨rfl, rfl, rfl⟩
  | _ => exact absurd hop (by simp [Instr.opcode])

/-- SET_WAVE touches SEL alone. -/
theorem mapsRegisters_of_writes_sel {i : Instr} (hop : i.opcode = 0x11) (c : Config) :
    ∃ sel, MapsRegisters i c id id sel := by
  cases i with
  | setWave arg =>
    rcases mapsRegisters_of_option (c := c) (cnt := id) (inc := id) (sel := fun _ => operandS arg)
        Variant.hasWaveSelect (exec_setWave arg) (fun _ _ => ⟨rfl, rfl, rfl⟩) with h | h
    all_goals exact ⟨_, h⟩
  | _ => exact absurd hop (by simp [Instr.opcode])

/-- The opcodes set against those that write INC are those that write CNT and the one that writes SEL. -/
theorem mem_cnt_opcodes_or_eq_setWave {op : Opcode} (h : op ∈ ([0x03, 0x06, 0x11] : List Opcode)) :
    op ∈ ([0x03, 0x06] : List Opcode) ∨ op = 0x11 := by
  simpa [or_assoc] using h

/-- Settles O57: of each register, at least one of the two commands leaves its value as it is. -/
theorem setupOrderIsFree : Obligations.SetupOrderIsFree := by
  intro i j s t u t' u' hops ht hu ht' hu'
  rcases hops with ⟨hi, hj⟩ | ⟨hi, hj⟩
  · obtain ⟨inc, hinc⟩ := mapsRegisters_of_writes_inc hi s.cfg
    rcases mem_cnt_opcodes_or_eq_setWave hj with hj | hj
    · obtain ⟨cnt, hcnt⟩ := mapsRegisters_of_writes_cnt hj s.cfg
      exact hinc.sameRegisters_of_commute hcnt .id_right .id_left .id_left ht hu ht' hu'
    · obtain ⟨sel, hsel⟩ := mapsRegisters_of_writes_sel hj s.cfg
      exact hinc.sameRegisters_of_commute hsel .id_left .id_left .id_right ht hu ht' hu'
  · obtain ⟨cnt, hcnt⟩ := mapsRegisters_of_writes_cnt hi s.cfg
    obtain ⟨sel, hsel⟩ := mapsRegisters_of_writes_sel hj s.cfg
    exact hcnt.sameRegisters_of_commute hsel .id_left .id_left .id_right ht hu ht' hu'

/-! ### Reads across a tick (R186) -/

theorem words_getCnt : WordsDecodeTo 0x04 .always (fun _ => .getCnt) :=
  wordsDecodeTo_of_row (fun _ => rfl) (fun _ => rfl)

/-- GET_CNT as the next of the inputs delivered: CNT is answered, and the others are still to come. -/
theorem step_deliver_getCnt (s : State) (a : Word) (es : List Input) :
    step (s.deliver (.command (mkWord 0x04 a) :: es))
      = .next (((s.record (mkWord 0x04 a)).respond false (s.cnt.setWidth 32)).deliver es) :=
  (step_deliver_command_ok es (words_getCnt s.cfg.variant a rfl)).trans (exec_getCnt _)

/-- Settles O56: the first read changes no register, so the second finds the phase advanced by the tick alone. -/
theorem tickBetweenTwoReads : Obligations.TickBetweenTwoReads := by
  intro s a a'
  have hfirst := step_deliver_getCnt s a [.tick, .command (mkWord 0x04 a')]
  have htick := step_deliver_tick ((s.record (mkWord 0x04 a)).respond false (s.cnt.setWidth 32))
    [.command (mkWord 0x04 a')]
  have hsecond := step_deliver_getCnt ((s.record (mkWord 0x04 a)).respond false (s.cnt.setWidth 32)).advancePhase a' []
  refine ⟨_, s.cnt.setWidth 32, s.advancePhase.cnt.setWidth 32,
    (runFor_succ hfirst).trans ((runFor_succ htick).trans ((runFor_one _).trans hsecond)),
    ?responses, setWidth32_toNat s.cnt, ?advanced⟩
  case responses => simp
  case advanced => rw [setWidth32_toNat, advancePhase_cnt_toNat]

/-! ### The aliasing guard (R188) -/

/-- SET_FREQ and SET_PERIOD leave in INC an increment of the converter, which keeps to the range of R129. -/
theorem exec_converter_inc_mem {s t : State} {b : Word} (hconv : s.cfg.variant.hasFreqConv = true)
    (h : exec (.setFreq b) s = .next t ∨ exec (.setPeriod b) s = .next t) :
    1 ≤ t.inc.toNat ∧ t.inc.toNat ≤ 2 ^ 23 := by
  have hT := config_one_le_tick s.cfg
  rcases h with h | h
  · obtain ⟨u, hexec, hinc, -⟩ := (setFreqStoresIncrement.2 b s).1 hconv
    cases h.symm.trans hexec
    exact hinc ▸ incrementForFrequency_mem hT _
  · obtain ⟨u, hexec, hinc, -⟩ := (setPeriodStoresIncrement.2 b s).1 hconv
    cases h.symm.trans hexec
    exact hinc ▸ incrementForPeriod_mem hT _

/-- Settles O38: the converter's range bounds what it stores, while SET_INC reduces its operand mod 2^24 only. -/
theorem converterGuardsAliasing : Obligations.ConverterGuardsAliasing := by
  refine ⟨fun s t b hconv h => ?guarded, fun s n hn => ?unguarded⟩
  case guarded =>
    obtain ⟨hpos, hle⟩ := exec_converter_inc_mem hconv h
    exact ⟨hpos, hle, by omega⟩
  case unguarded =>
    obtain ⟨t, hexec, hinc, -⟩ := setIncStoresArgMod24.2 (BitVec.ofNat 32 n) s
    refine ⟨t, hexec, ?_⟩
    rw [hinc, BitVec.toNat_ofNat]
    omega

end Sys2Proof.Machine
end
